-- ==== Sys2Proof/Word.lean ====
section
/-! DEFINITION. The word types of the core: spec/00_scope.md R5 (widths) and R7 (every value is unsigned). -/

namespace Sys2Proof

/-- One byte: a general register, a timer, a cell of MEM (10_state.md R11, R20, R21, R26). -/
abbrev Byte := BitVec 8

/-- Sixteen bits: `pc`, `I`, a stack entry, an instruction word (10_state.md R14, R16, R18; 30_encoding.md R60). -/
abbrev Word := BitVec 16

/-- Four bits: the fields `op`, `x`, `y`, `n` of an instruction (30_encoding.md R61) and a key number (10_state.md R22). -/
abbrev Nibble := BitVec 4

/-- The twelve bits of the field `nnn` (30_encoding.md R61). -/
abbrev Addr12 := BitVec 12

/-- The number of a general register, the fields `x` and `y` (30_encoding.md R63). -/
abbrev RegNum := BitVec 4

/-- A key number 0..15 (10_state.md R22). -/
abbrev Key := BitVec 4

/-- One row of the framebuffer: 64 one-bit cells, column `c` is bit `c` (10_state.md R27). -/
abbrev PixelRow := BitVec 64

end Sys2Proof
end

