-- ==== Sys2Proof/Syntax.lean ====
section
/-! DEFINITION. The 35 instructions, one constructor per row of spec/opcode_table.json (spec/30_encoding.md R75).
Register numbers, immediates and row counts are bit fields of the word (R61, R63). -/

namespace Sys2Proof

/-- The instructions of 30_encoding.md R75, in its order. -/
inductive Instr where
  /-- 0nnn, `SYS nnn`: every group-0 word but 0x00E0 and 0x00EE (40_step_and_dispatch.md R92). -/
  | sys (nnn : Addr12)
  /-- 00E0, `CLS` (44_display.md R150). -/
  | cls
  /-- 00EE, `RET` (41_control_transfer.md R100). -/
  | ret
  /-- 1nnn, `JP nnn` (R101). -/
  | jp (nnn : Addr12)
  /-- 2nnn, `CALL nnn` (R102). -/
  | call (nnn : Addr12)
  /-- 3xnn, `SE Vx, nn` (R103). -/
  | seImm (x : RegNum) (nn : Byte)
  /-- 4xnn, `SNE Vx, nn` (R104). -/
  | sneImm (x : RegNum) (nn : Byte)
  /-- 5xy0, `SE Vx, Vy` (R105); the word's low nibble is ignored (30_encoding.md R69). -/
  | seReg (x y : RegNum)
  /-- 6xnn, `LD Vx, nn` (42_alu.md R120). -/
  | ldImm (x : RegNum) (nn : Byte)
  /-- 7xnn, `ADD Vx, nn` (R121). -/
  | addImm (x : RegNum) (nn : Byte)
  /-- 8xy0, `LD Vx, Vy` (R122). -/
  | ldReg (x y : RegNum)
  /-- 8xy1, `OR Vx, Vy` (R123). -/
  | or (x y : RegNum)
  /-- 8xy2, `AND Vx, Vy` (R124). -/
  | and (x y : RegNum)
  /-- 8xy3, `XOR Vx, Vy` (R125). -/
  | xor (x y : RegNum)
  /-- 8xy4, `ADD Vx, Vy` (R126). -/
  | addReg (x y : RegNum)
  /-- 8xy5, `SUB Vx, Vy` (R127). -/
  | sub (x y : RegNum)
  /-- 8xy6, `SHR Vx, Vy` (R128). -/
  | shr (x y : RegNum)
  /-- 8xy7, `SUBN Vx, Vy` (R129). -/
  | subn (x y : RegNum)
  /-- 8xyE, `SHL Vx, Vy` (R130). -/
  | shl (x y : RegNum)
  /-- 9xy0, `SNE Vx, Vy` (R106); the word's low nibble is ignored (30_encoding.md R69). -/
  | sneReg (x y : RegNum)
  /-- Annn, `LD I, nnn` (43_index_and_memory.md R140). -/
  | ldI (nnn : Addr12)
  /-- Bnnn, `JP V0, nnn` (41_control_transfer.md R107). -/
  | jpOffset (nnn : Addr12)
  /-- Cxnn, `RND Vx, nn` (42_alu.md R131). -/
  | rnd (x : RegNum) (nn : Byte)
  /-- Dxyn, `DRW Vx, Vy, n` (44_display.md R151). -/
  | drw (x y : RegNum) (n : Nibble)
  /-- Ex9E, `SKP Vx` (45_keypad_and_timers.md R160). -/
  | skp (x : RegNum)
  /-- ExA1, `SKNP Vx` (R161). -/
  | sknp (x : RegNum)
  /-- Fx07, `LD Vx, DT` (R163). -/
  | ldFromDt (x : RegNum)
  /-- Fx0A, `LD Vx, K` (R162). -/
  | ldKey (x : RegNum)
  /-- Fx15, `LD DT, Vx` (R164). -/
  | ldDt (x : RegNum)
  /-- Fx18, `LD ST, Vx` (R165). -/
  | ldSt (x : RegNum)
  /-- Fx1E, `ADD I, Vx` (43_index_and_memory.md R141). -/
  | addI (x : RegNum)
  /-- Fx29, `LD F, Vx` (R142). -/
  | ldFont (x : RegNum)
  /-- Fx33, `LD B, Vx` (R143). -/
  | ldBcd (x : RegNum)
  /-- Fx55, `LD [I], Vx` (R144). -/
  | storeRegs (x : RegNum)
  /-- Fx65, `LD Vx, [I]` (R145). -/
  | loadRegs (x : RegNum)
  deriving DecidableEq, Repr

end Sys2Proof
end

