-- ==== Sys2Proof/WellFormed.lean ====
section
/-! DEFINITION. Which terms of `Instr` are instructions of the core. The widths of the fields are in their types
(spec/30_encoding.md R61, R63); one check is left: group 0. -/

namespace Sys2Proof

/-- 30_encoding.md R65, R70: the words 0x00E0 and 0x00EE are CLS and RET, so no SYS carries 0x0E0 or 0x0EE. -/
abbrev sysAllowed (nnn : Addr12) : Prop := nnn ≠ 0x0E0#12 ∧ nnn ≠ 0x0EE#12

/-- The term stands for an instruction of 30_encoding.md R75. Every field of every other constructor admits
every value of its width (R63: `x` and `y` select any register, `n`, `nn`, `nnn` are unsigned). -/
def Instr.wellFormed : Instr → Bool
  | .sys nnn => decide (sysAllowed nnn)
  | .cls | .ret => true
  | .jp _ | .call _ | .ldI _ | .jpOffset _ => true
  | .seImm _ _ | .sneImm _ _ | .ldImm _ _ | .addImm _ _ | .rnd _ _ => true
  | .seReg _ _ | .sneReg _ _ => true
  | .ldReg _ _ | .or _ _ | .and _ _ | .xor _ _ | .addReg _ _ | .sub _ _ | .shr _ _ | .subn _ _ | .shl _ _ => true
  | .drw _ _ _ => true
  | .skp _ | .sknp _ | .ldFromDt _ | .ldKey _ | .ldDt _ | .ldSt _ => true
  | .addI _ | .ldFont _ | .ldBcd _ | .storeRegs _ | .loadRegs _ => true

end Sys2Proof
end

