-- ==== Sys2Proof/Decode.lean ====
section
/-! DEFINITION. Decoding and encoding: spec/30_encoding.md R60 to R75 and R78. Decoding is total and reads nothing
but the word (40_step_and_dispatch.md R83). -/

namespace Sys2Proof

/-! ## Fields (30_encoding.md R61) -/

def opOf (w : Word) : Nibble := w.extractLsb' 12 4
def xOf (w : Word) : RegNum := w.extractLsb' 8 4
def yOf (w : Word) : RegNum := w.extractLsb' 4 4
def nOf (w : Word) : Nibble := w.extractLsb' 0 4
def nnOf (w : Word) : Byte := w.extractLsb' 0 8
def nnnOf (w : Word) : Addr12 := w.extractLsb' 0 12

/-! ## Decoding -/

/-- Why a word or a byte string is no instruction. -/
inductive DecodeError where
  /-- 8xyn with `n` in 8..D or F (30_encoding.md R71). -/
  | unknownGroup8 (w : Word)
  /-- Exnn with `nn` other than 9E and A1 (R72). -/
  | unknownGroupE (w : Word)
  /-- Fxnn with `nn` outside the nine of R68 (R73). -/
  | unknownGroupF (w : Word)
  /-- Fewer than the two bytes every instruction has (R60). -/
  | truncated
  deriving DecidableEq, Repr

/-- Group 0 (30_encoding.md R65, R70): whole words; everything else is SYS. -/
def decodeGroup0 (w : Word) : Instr :=
  if w = 0x00E0#16 then .cls
  else if w = 0x00EE#16 then .ret
  else .sys (nnnOf w)

/-- Group 8 (30_encoding.md R66, R71): secondary dispatch on `n`. -/
def decodeGroup8 (w : Word) : Except DecodeError Instr :=
  match (nOf w).toNat with
  | 0x0 => .ok (.ldReg (xOf w) (yOf w))
  | 0x1 => .ok (.or (xOf w) (yOf w))
  | 0x2 => .ok (.and (xOf w) (yOf w))
  | 0x3 => .ok (.xor (xOf w) (yOf w))
  | 0x4 => .ok (.addReg (xOf w) (yOf w))
  | 0x5 => .ok (.sub (xOf w) (yOf w))
  | 0x6 => .ok (.shr (xOf w) (yOf w))
  | 0x7 => .ok (.subn (xOf w) (yOf w))
  | 0xE => .ok (.shl (xOf w) (yOf w))
  | _ => .error (.unknownGroup8 w)

/-- Group E (30_encoding.md R67, R72): secondary dispatch on `nn`. -/
def decodeGroupE (w : Word) : Except DecodeError Instr :=
  match (nnOf w).toNat with
  | 0x9E => .ok (.skp (xOf w))
  | 0xA1 => .ok (.sknp (xOf w))
  | _ => .error (.unknownGroupE w)

/-- Group F (30_encoding.md R68, R73): secondary dispatch on `nn`. -/
def decodeGroupF (w : Word) : Except DecodeError Instr :=
  match (nnOf w).toNat with
  | 0x07 => .ok (.ldFromDt (xOf w))
  | 0x0A => .ok (.ldKey (xOf w))
  | 0x15 => .ok (.ldDt (xOf w))
  | 0x18 => .ok (.ldSt (xOf w))
  | 0x1E => .ok (.addI (xOf w))
  | 0x29 => .ok (.ldFont (xOf w))
  | 0x33 => .ok (.ldBcd (xOf w))
  | 0x55 => .ok (.storeRegs (xOf w))
  | 0x65 => .ok (.loadRegs (xOf w))
  | _ => .error (.unknownGroupF w)

/-- Primary dispatch on `op` (30_encoding.md R64). Groups 5 and 9 ignore `n` (R69). All sixteen values of `op`
are assigned (R74): the last arm is 0xF. -/
def decodeWord (w : Word) : Except DecodeError Instr :=
  match (opOf w).toNat with
  | 0x0 => .ok (decodeGroup0 w)
  | 0x1 => .ok (.jp (nnnOf w))
  | 0x2 => .ok (.call (nnnOf w))
  | 0x3 => .ok (.seImm (xOf w) (nnOf w))
  | 0x4 => .ok (.sneImm (xOf w) (nnOf w))
  | 0x5 => .ok (.seReg (xOf w) (yOf w))
  | 0x6 => .ok (.ldImm (xOf w) (nnOf w))
  | 0x7 => .ok (.addImm (xOf w) (nnOf w))
  | 0x8 => decodeGroup8 w
  | 0x9 => .ok (.sneReg (xOf w) (yOf w))
  | 0xA => .ok (.ldI (nnnOf w))
  | 0xB => .ok (.jpOffset (nnnOf w))
  | 0xC => .ok (.rnd (xOf w) (nnOf w))
  | 0xD => .ok (.drw (xOf w) (yOf w) (nOf w))
  | 0xE => decodeGroupE w
  | _ => decodeGroupF w

/-- The word of two bytes as the hardware stores them: the byte at the lower address is the more significant
half (20_memory.md R43). -/
def wordOfBytes (hi lo : Byte) : Word := hi ++ lo

/-- Decode the first instruction of a byte string; the rest of the string comes with it. -/
def decodeBytes : List Byte → Except DecodeError (Instr × List Byte)
  | hi :: lo :: rest => (decodeWord (wordOfBytes hi lo)).map fun i => (i, rest)
  | _ => .error .truncated

/-! ## Encoding (30_encoding.md R78) -/

def placeX (x : RegNum) : Word := x.setWidth 16 <<< 8
def placeY (y : RegNum) : Word := y.setWidth 16 <<< 4
def placeN (n : Nibble) : Word := n.setWidth 16
def placeNN (nn : Byte) : Word := nn.setWidth 16
def placeNNN (nnn : Addr12) : Word := nnn.setWidth 16

/-- The row's `match` with the operand fields OR-ed in (30_encoding.md R75, R78). Where the decoder ignores
`n` (5xy0, 9xy0) the canonical encoding has it 0 (R69). -/
def encode : Instr → Word
  | .sys nnn => 0x0000#16 ||| placeNNN nnn
  | .cls => 0x00E0#16
  | .ret => 0x00EE#16
  | .jp nnn => 0x1000#16 ||| placeNNN nnn
  | .call nnn => 0x2000#16 ||| placeNNN nnn
  | .seImm x nn => 0x3000#16 ||| placeX x ||| placeNN nn
  | .sneImm x nn => 0x4000#16 ||| placeX x ||| placeNN nn
  | .seReg x y => 0x5000#16 ||| placeX x ||| placeY y
  | .ldImm x nn => 0x6000#16 ||| placeX x ||| placeNN nn
  | .addImm x nn => 0x7000#16 ||| placeX x ||| placeNN nn
  | .ldReg x y => 0x8000#16 ||| placeX x ||| placeY y
  | .or x y => 0x8001#16 ||| placeX x ||| placeY y
  | .and x y => 0x8002#16 ||| placeX x ||| placeY y
  | .xor x y => 0x8003#16 ||| placeX x ||| placeY y
  | .addReg x y => 0x8004#16 ||| placeX x ||| placeY y
  | .sub x y => 0x8005#16 ||| placeX x ||| placeY y
  | .shr x y => 0x8006#16 ||| placeX x ||| placeY y
  | .subn x y => 0x8007#16 ||| placeX x ||| placeY y
  | .shl x y => 0x800E#16 ||| placeX x ||| placeY y
  | .sneReg x y => 0x9000#16 ||| placeX x ||| placeY y
  | .ldI nnn => 0xA000#16 ||| placeNNN nnn
  | .jpOffset nnn => 0xB000#16 ||| placeNNN nnn
  | .rnd x nn => 0xC000#16 ||| placeX x ||| placeNN nn
  | .drw x y n => 0xD000#16 ||| placeX x ||| placeY y ||| placeN n
  | .skp x => 0xE09E#16 ||| placeX x
  | .sknp x => 0xE0A1#16 ||| placeX x
  | .ldFromDt x => 0xF007#16 ||| placeX x
  | .ldKey x => 0xF00A#16 ||| placeX x
  | .ldDt x => 0xF015#16 ||| placeX x
  | .ldSt x => 0xF018#16 ||| placeX x
  | .addI x => 0xF01E#16 ||| placeX x
  | .ldFont x => 0xF029#16 ||| placeX x
  | .ldBcd x => 0xF033#16 ||| placeX x
  | .storeRegs x => 0xF055#16 ||| placeX x
  | .loadRegs x => 0xF065#16 ||| placeX x

def highByte (w : Word) : Byte := w.extractLsb' 8 8
def lowByte (w : Word) : Byte := w.extractLsb' 0 8

/-- `w[15:8]` at the lower address, `w[7:0]` at the next (30_encoding.md R78). -/
def bytesOfWord (w : Word) : List Byte := [highByte w, lowByte w]

/-- The bytes of an instruction in address order (30_encoding.md R78). -/
def encodeBytes (i : Instr) : List Byte := bytesOfWord (encode i)

/-- The word of an opcode-table row of `nbits` bits: the bits above `nbits` are 0. Every row of the table has
16 bits, numbered as the word is. -/
def tableWord (nbits w : Nat) : Word := BitVec.ofNat 16 (w % 2 ^ nbits)

/-- The instruction the decoder reads from a word numbered as spec/opcode_table.json numbers it: the word is laid
out as the hardware stores it and given to the decoder. -/
def decodeTableWord (nbits w : Nat) : Option Instr :=
  match decodeBytes (bytesOfWord (tableWord nbits w)) with
  | .ok (i, _) => some i
  | .error _ => none

end Sys2Proof
end

