-- ==== Sys2Proof/Config.lean ====
section
/-! DEFINITION. The parameters of the hardware (spec/00_scope.md R5) and the one free value of the model. -/

namespace Sys2Proof.Config

/-- MEM_SIZE, bytes of main memory (00_scope.md R5). -/
abbrev memSize : Nat := 4096

/-- LABEL_BASE and LABEL_SIZE (00_scope.md R5; 20_memory.md R41). -/
abbrev labelBase : Nat := 0
abbrev labelSize : Nat := 80

/-- FONT_BASE, FONT_SIZE and GLYPH_SIZE (00_scope.md R5; 20_memory.md R41). -/
abbrev fontBase : Nat := 80
abbrev fontSize : Nat := 80
abbrev glyphSize : Nat := 5

/-- PROG_BASE, the load address and the reset `pc` (00_scope.md R5; 70_reset_and_hazards.md R203). -/
abbrev progBase : Nat := 512

/-- PC_MAX, the largest legal `pc` (00_scope.md R5; 10_state.md R15). -/
abbrev pcMax : Nat := 4094

/-- FB_W and FB_H (00_scope.md R5). -/
abbrev fbWidth : Nat := 64
abbrev fbHeight : Nat := 32

/-- The default of the open parameter STACK_CAPACITY (00_scope.md R5; 92_eei_decisions.md D2).
PRESUMED, unsafe: 16 is the spec's default from general knowledge (log 3). The capacity a state has is
the length of its `stk`; no definition of the machine but `State.reset` reads this number. -/
abbrev defaultStackCapacity : Nat := 16

/-- The default of INDEX_OVERFLOW_LIMIT (43_index_and_memory.md R141; 92_eei_decisions.md D13).
DESIGN CHOICE, unsafe: the source's literal, unaudited (log 4). The limit a state has is its `indexLimit`. -/
abbrev defaultIndexLimit : Nat := 0x1000

/-- RND: the byte that the `k`-th Cxnn draws (10_state.md R28; 42_alu.md R131; 93_implementation_defined.md U4).
A free value with no body: nothing can be proved of any byte of it (log 8). -/
opaque rndDraw : Nat → Byte

end Sys2Proof.Config
end

