-- ==== Sys2Proof/Machine/State.lean ====
section
/-! DEFINITION. The architectural state of the core (spec/10_state.md R10), its reasons to stop, and the state after
reset (R30). -/

namespace Sys2Proof.Machine

/-- `Q.shift_source` (10_state.md R25): the operand 8xy6 and 8xyE read. -/
inductive ShiftSource where
  /-- "the second operand register". -/
  | vy
  /-- "the destination register itself". -/
  | vx
  deriving DecidableEq, Repr

/-- `Q.jump_offset_register` (10_state.md R25): the register Bnnn adds. -/
inductive JumpOffsetRegister where
  /-- "reg[0] (legacy)". -/
  | v0
  /-- "reg[x] (modern)". -/
  | vx
  deriving DecidableEq, Repr

/-- `Q`, the quirk straps (10_state.md R25): sampled by RESET, written by nothing else. -/
structure Quirks where
  shiftSource : ShiftSource
  jumpOffsetRegister : JumpOffsetRegister
  indexOverflowFlag : Bool
  indexAutoIncrement : Bool
  flagResetOnLogic : Bool
  deriving DecidableEq, Repr

/-- All five straps 0. DESIGN CHOICE, unsafe: the spec gives no default; `State.reset` needs one (log 7). -/
def Quirks.allZero : Quirks where
  shiftSource := .vy
  jumpOffsetRegister := .v0
  indexOverflowFlag := false
  indexAutoIncrement := false
  flagResetOnLogic := false

/-- The causes of a fatal (60_exceptions.md R171). -/
inductive FatalCode where
  | unknownOpcode
  | stackUnderflow
  | stackOverflow
  | memRange
  | pcRange
  deriving DecidableEq, Repr

/-- The code's number (60_exceptions.md R171). -/
def FatalCode.number : FatalCode → Nat
  | .unknownOpcode => 1
  | .stackUnderflow => 2
  | .stackOverflow => 3
  | .memRange => 4
  | .pcRange => 5

/-- `fatal(code, info)` (10_state.md R23). The info is a natural number: an address or a `pc` value may exceed 16 bits
(20_memory.md R46; 40_step_and_dispatch.md R87). -/
structure Fatal where
  code : FatalCode
  info : Nat
  deriving DecidableEq, Repr

/-- The causes of a warning (60_exceptions.md R176). -/
inductive WarningCode where
  | group0Unknown
  deriving DecidableEq, Repr

/-- The code's number (60_exceptions.md R176). -/
def WarningCode.number : WarningCode → Nat
  | .group0Unknown => 1

/-- `warning(code, info)` (10_state.md R24). -/
structure Warning where
  code : WarningCode
  info : Word
  deriving DecidableEq, Repr

/-- The 4096 bytes of MEM as the cells that differ from the reset contents, addresses strictly rising
(Sys2Proof/Machine/Memory.lean says what an unlisted address reads as). -/
abbrev Memory := List Host.Cell

/-- FB: 32 rows of 64 one-bit cells, row 0 first (10_state.md R27). -/
abbrev Framebuffer := Vector PixelRow 32

/-- The machine's state: 10_state.md R10, the two parameters the spec leaves open (`stk`'s length and `indexLimit`),
and the model's own counter `draws`. -/
structure State where
  /-- `V[0..15]` (R11); `V[15]` is VF (R12). -/
  v : Vector Byte 16
  /-- `pc` (R14). -/
  pc : Word
  /-- `I` (R16). -/
  i : Word
  /-- `SP`, the count of live stack entries (R17). -/
  sp : Nat
  /-- `STK` (R18); its length is STACK_CAPACITY (log 3). -/
  stk : List Word
  /-- `DT` (R20). -/
  dt : Byte
  /-- `ST` (R21). -/
  st : Byte
  /-- `KEY`: none or a key number (R22). -/
  key : Option Key
  /-- `ERR`: none or the one latched fatal (R23). -/
  err : Option Fatal
  /-- `WARN`: none or the last warning (R24). -/
  warn : Option Warning
  /-- `Q` (R25). -/
  q : Quirks
  /-- `MEM` (R26). -/
  mem : Memory
  /-- `FB` (R27). -/
  fb : Framebuffer
  /-- INDEX_OVERFLOW_LIMIT, a parameter of the hardware: no instruction and no transaction writes it (log 4). -/
  indexLimit : Nat
  /-- The model's own: how many RND draws have been taken (log 8). -/
  draws : Nat
  deriving DecidableEq, Repr

/-- The faults of the machine: none. Every fatal of 60_exceptions.md R171 is an entry the spec describes whole (R180:
it latches ERR and leaves the rest), so the model takes it as a next state, and no step stops with a fault (log 9). -/
inductive Fault where
  deriving DecidableEq, Repr

/-- The refusals of the machine. -/
inductive Refusal where
  /-- Raised by an arm of `exec` whose instruction has no meaning yet. No arm raises it. Safe. -/
  | notModelled (mnemonic : String)
  /-- Raised by CALL and RET in a state whose SP is above STACK_CAPACITY. No transaction reaches such a state; only
  the out-of-scope state replacement could make one, and 93_implementation_defined.md U13 says refuse. Safe (log 10). -/
  | stackPointerBeyondCapacity
  deriving DecidableEq, Repr

/-- The machine right after RESET (10_state.md R30; 70_reset_and_hazards.md R200). Memory lists nothing: every byte
reads as its reset contents. `q`, `stk`'s length, `indexLimit` and `draws` are the values of logs 7, 3, 4 and 8. -/
def State.reset : State where
  v := Vector.replicate 16 0#8
  pc := BitVec.ofNat 16 Config.progBase
  i := 0#16
  sp := 0
  stk := List.replicate Config.defaultStackCapacity 0#16
  dt := 0#8
  st := 0#8
  key := none
  err := none
  warn := none
  q := Quirks.allZero
  mem := []
  fb := Vector.replicate 32 0#64
  indexLimit := Config.defaultIndexLimit
  draws := 0

end Sys2Proof.Machine
end

