-- ==== Sys2Proof/Machine/Memory.lean ====
section
/-! DEFINITION. MEM: what an unlisted address reads as, reading and writing one byte, the canonical form
(spec/20_memory.md R40 to R46; spec/10_state.md R30, R31). -/

namespace Sys2Proof.Machine

/-- The customary hexadecimal font, glyph by glyph (10_state.md R31).
PRESUMED, unsafe: the spec has the 80 bytes from general knowledge (log 5). -/
def defaultFont : List Byte :=
  ([0xF0, 0x90, 0x90, 0x90, 0xF0] ++ [0x20, 0x60, 0x20, 0x20, 0x70]
    ++ [0xF0, 0x10, 0xF0, 0x80, 0xF0] ++ [0xF0, 0x10, 0xF0, 0x10, 0xF0])
  ++ ([0x90, 0x90, 0xF0, 0x10, 0x10] ++ [0xF0, 0x80, 0xF0, 0x10, 0xF0]
    ++ [0xF0, 0x80, 0xF0, 0x90, 0xF0] ++ [0xF0, 0x10, 0x20, 0x40, 0x40])
  ++ ([0xF0, 0x90, 0xF0, 0x90, 0xF0] ++ [0xF0, 0x90, 0xF0, 0x10, 0xF0]
    ++ [0xF0, 0x90, 0xF0, 0x90, 0x90] ++ [0xE0, 0x90, 0xE0, 0x90, 0xE0])
  ++ ([0xF0, 0x80, 0x80, 0x80, 0xF0] ++ [0xE0, 0x90, 0x90, 0x90, 0xE0]
    ++ [0xF0, 0x80, 0xF0, 0x80, 0xF0] ++ [0xF0, 0x80, 0xF0, 0x80, 0x80])

/-- The default LABEL. DESIGN CHOICE, unsafe: the spec gives no byte of it (92_eei_decisions.md D18; log 6). -/
def defaultLabel : List Byte := List.replicate 80 0

/-- What an address that memory does not list reads as: the reset contents of 10_state.md R30 under the default
LABEL and FONT, and 0 from 160 up (20_memory.md R41). -/
def unlistedByte (a : Nat) : Byte := (defaultLabel ++ defaultFont).getD a 0

/-- The byte at an address. -/
def Memory.read : Memory → Nat → Byte
  | [], a => unlistedByte a
  | (b, v) :: m, a => if b = a then v else Memory.read m a

/-- Put a cell in its place among rising addresses. -/
def Memory.insert (a : Nat) (v : Byte) : Memory → Memory
  | [] => [(a, v)]
  | c :: m => if a < c.1 then (a, v) :: c :: m else c :: Memory.insert a v m

/-- Forget what is listed for an address. -/
def Memory.erase (m : Memory) (a : Nat) : Memory := m.filter fun c => c.1 ≠ a

/-- Write one byte, keeping the canonical form: a byte equal to what the address reads as unlisted is not listed. -/
def Memory.write (m : Memory) (a : Nat) (v : Byte) : Memory :=
  if v = unlistedByte a then m.erase a else (m.erase a).insert a v

/-- The canonical form: addresses strictly rising and inside MEM, no cell equal to what it reads as unlisted. -/
abbrev Memory.wf (m : Memory) : Prop :=
  m.Pairwise (fun c d => c.1 < d.1) ∧ ∀ c ∈ m, c.1 < Config.memSize ∧ c.2 ≠ unlistedByte c.1

/-- Write consecutive bytes from an address up, in ascending order. No range test: the host's writes of RESET and
LOAD_PROGRAM, whose addresses are inside MEM (70_reset_and_hazards.md R200, R204). -/
def Memory.place (m : Memory) (a : Nat) : List Byte → Memory
  | [] => m
  | b :: bs => Memory.place (m.write a b) (a + 1) bs

end Sys2Proof.Machine
end

