-- ==== Sys2Proof/Machine/Ops.lean ====
section
/-! DEFINITION. The named operations the meanings share: registers, the two stack primitives, memory access with its
range test, taking a fatal, warning, and the commit of a STEP. -/

namespace Sys2Proof.Machine

/-- What a STEP answers. -/
abbrev Result := Host.Outcome State Fault Refusal

/-! ## Why an operation does not complete -/

/-- An operation that does not complete raises a fatal (60_exceptions.md R171) or has no meaning (log 10). -/
inductive Stop where
  | fatal (f : Fatal)
  | refuse (r : Refusal)
  deriving DecidableEq, Repr

/-! ## Taking a fatal (60_exceptions.md R180; 40_step_and_dispatch.md R90) -/

/-- `raise Fatal(code, info)` in a STEP that began in `s`: everything the STEP wrote is discarded, and ERR takes the
fatal; once set it is never overwritten (10_state.md R23). Nothing is saved, no mode changes, `pc` stays at the faulting
instruction (R180). There is no return from a fatal (60_exceptions.md R181): only RESET clears ERR. -/
def raiseFatal (s : State) (f : Fatal) : Result :=
  .next { s with err := s.err.or (some f) }

/-- How a STEP that began in `s` ends when one of its operations did not complete. -/
def stopped (s : State) : Stop → Result
  | .fatal f => raiseFatal s f
  | .refuse r => .refused r

/-- Run an operation of a STEP that began in `s` and go on with its answer. -/
def attempt {α : Type} (s : State) (r : Except Stop α) (k : α → Result) : Result :=
  match r with
  | .error e => stopped s e
  | .ok a => k a

/-! ## Warnings (60_exceptions.md R176) -/

/-- `warn(code, info)`: WARN takes the warning and the STEP goes on. -/
def State.warning (s : State) (code : WarningCode) (info : Word) : State :=
  { s with warn := some { code := code, info := info } }

/-! ## The commit (40_step_and_dispatch.md R87, R88) -/

/-- A `pc` the machine may run at: even and at most 4094 (10_state.md R15). -/
abbrev PcLegal (p : Nat) : Prop := p % 2 = 0 ∧ p ≤ Config.pcMax

/-- The end of a STEP that began in `s`, whose effects are `s'` and whose `pc_next` is the natural number `p`
(40_step_and_dispatch.md R88): every effect and `pc`, or PC_RANGE and no effect. -/
def commit (s s' : State) (p : Nat) : Result :=
  if PcLegal p then .next { s' with pc := BitVec.ofNat 16 p }
  else raiseFatal s { code := .pcRange, info := p }

/-- The generic increment (40_step_and_dispatch.md R85). -/
def nextPc (s : State) : Nat := s.pc.toNat + 2

/-- `pc_next` of a conditional skip (40_step_and_dispatch.md R86; 41_control_transfer.md R108). -/
def skipPc (s : State) (taken : Bool) : Nat := if taken then s.pc.toNat + 4 else nextPc s

/-! ## General registers (10_state.md R11) -/

/-- `V[x]`. -/
def State.reg (s : State) (x : RegNum) : Byte := s.v[x.toNat]

/-- `V[x] <- b`. -/
def State.setReg (s : State) (x : RegNum) (b : Byte) : State := { s with v := s.v.set x.toNat b }

/-- The number of VF (10_state.md R12). -/
abbrev vf : RegNum := 15#4

/-- `V[k]`, `V[k+1]`, ... take the bytes in order; there is no register 16 or above. -/
def setRegsFrom (v : Vector Byte 16) (k : Nat) : List Byte → Vector Byte 16
  | [] => v
  | b :: bs => setRegsFrom (v.setIfInBounds k b) (k + 1) bs

/-! ## The stack (10_state.md R17 to R19) -/

/-- `Push(v)`: STACK_CAPACITY is the length of `stk`. -/
def push (s : State) (a : Word) : Except Stop State :=
  if s.sp < s.stk.length then .ok { s with stk := s.stk.set s.sp a, sp := s.sp + 1 }
  else if s.sp = s.stk.length then .error (.fatal { code := .stackOverflow, info := s.pc.toNat })
  else .error (.refuse .stackPointerBeyondCapacity)

/-- `Pop()`: the popped address and the state without it; the entry keeps its old value (10_state.md R18). -/
def pop (s : State) : Except Stop (Word × State) :=
  if s.sp = 0 then .error (.fatal { code := .stackUnderflow, info := s.pc.toNat })
  else if s.sp ≤ s.stk.length then .ok (s.stk.getD (s.sp - 1) 0, { s with sp := s.sp - 1 })
  else .error (.refuse .stackPointerBeyondCapacity)

/-! ## Memory access (20_memory.md R43 to R46) -/

/-- `MemRead(addr, 1)` (20_memory.md R44). -/
def memRead (m : Memory) (a : Nat) : Except Stop Byte :=
  if a < Config.memSize then .ok (m.read a) else .error (.fatal { code := .memRange, info := a })

/-- `MemWrite(addr, 1, v)` (20_memory.md R45). -/
def memWrite (m : Memory) (a : Nat) (v : Byte) : Except Stop Memory :=
  if a < Config.memSize then .ok (m.write a v) else .error (.fatal { code := .memRange, info := a })

/-- Bytes to consecutive addresses from `a` up, ascending (20_memory.md R49), stopping at the first that does not
exist. Addresses are natural numbers and never wrap (R46). -/
def memWriteBytes (m : Memory) (a : Nat) : List Byte → Except Stop Memory
  | [] => .ok m
  | b :: bs =>
    match memWrite m a b with
    | .error e => .error e
    | .ok m' => memWriteBytes m' (a + 1) bs

/-- `k` bytes from consecutive addresses from `a` up, ascending (20_memory.md R49). -/
def memReadBytes (m : Memory) (a : Nat) : Nat → Except Stop (List Byte)
  | 0 => .ok []
  | k + 1 =>
    match memRead m a with
    | .error e => .error e
    | .ok b =>
      match memReadBytes m (a + 1) k with
      | .error e => .error e
      | .ok bs => .ok (b :: bs)

/-! ## The framebuffer (10_state.md R27) -/

/-- `FB[r][c]`; outside the grid there is no cell, and the answer is `false`. -/
def pixel (fb : Framebuffer) (r c : Nat) : Bool :=
  if h : r < 32 then (fb[r]).getLsbD c else false

/-- One row with cell `c` set to `b`. -/
def setPixelInRow (row : PixelRow) (c : Nat) (b : Bool) : PixelRow :=
  if b then row ||| BitVec.twoPow 64 c else row &&& ~~~(BitVec.twoPow 64 c)

/-- `FB[r][c] <- b`; outside the grid nothing is written. -/
def setPixel (fb : Framebuffer) (r c : Nat) (b : Bool) : Framebuffer :=
  if h : r < 32 then fb.set r (setPixelInRow fb[r] c b) else fb

end Sys2Proof.Machine
end

