-- ==== Sys2Proof/Machine/Operands.lean ====
section
/-! DEFINITION. The operand forms of the instructions: what each field, strap and implicit register stands for. -/

namespace Sys2Proof.Machine

/-- The shift source of 8xy6 and 8xyE (42_alu.md R128, R130): `V[y]` or `V[x]` by `Q.shift_source`. -/
def shiftOperand (s : State) (x y : RegNum) : Byte :=
  match s.q.shiftSource with
  | .vy => s.reg y
  | .vx => s.reg x

/-- The top digit of `nnn`, which is also the field `x` of Bnnn (30_encoding.md R62). -/
def topDigit (nnn : Addr12) : RegNum := nnn.extractLsb' 8 4

/-- The offset register of Bnnn (41_control_transfer.md R107). -/
def jumpOffsetReg (s : State) (nnn : Addr12) : RegNum :=
  match s.q.jumpOffsetRegister with
  | .v0 => 0#4
  | .vx => topDigit nnn

/-- The target of Bnnn, a natural number, not reduced (41_control_transfer.md R107; 40_step_and_dispatch.md R87). -/
def jumpOffsetTarget (s : State) (nnn : Addr12) : Nat :=
  nnn.toNat + (s.reg (jumpOffsetReg s nnn)).toNat

/-- `zext_16(nnn)`, the value Annn writes (43_index_and_memory.md R140). -/
def indexOfImm (nnn : Addr12) : Word := nnn.setWidth 16

/-- The address of the first byte a data access touches; `I` is not reduced (20_memory.md R46; 43_index_and_memory.md R146). -/
def dataAddr (s : State) : Nat := s.i.toNat

/-- `80 + V[x] * 5`, the register not masked (43_index_and_memory.md R142). -/
def glyphAddr (b : Byte) : Word := BitVec.ofNat 16 (Config.fontBase + b.toNat * Config.glyphSize)

/-- Hundreds, tens, units (43_index_and_memory.md R143). -/
def bcdDigits (b : Byte) : List Byte :=
  [BitVec.ofNat 8 (b.toNat / 100), BitVec.ofNat 8 (b.toNat / 10 % 10), BitVec.ofNat 8 (b.toNat % 10)]

/-- `V[0], ..., V[x]`, ascending (43_index_and_memory.md R144). -/
def regsUpTo (s : State) (x : RegNum) : List Byte := s.v.toList.take (x.toNat + 1)

/-- `I` after Fx55 and Fx65 (43_index_and_memory.md R144, R145). -/
def indexAfterBlock (s : State) (x : RegNum) : Word :=
  if s.q.indexAutoIncrement then BitVec.ofNat 16 (s.i.toNat + x.toNat + 1) else s.i

/-- `V[x][3:0]`, the key number Ex9E and ExA1 compare (45_keypad_and_timers.md R160, R161). -/
def keyOperand (s : State) (x : RegNum) : Key := (s.reg x).extractLsb' 0 4

/-- `KEY != none and KEY = k` (45_keypad_and_timers.md R160); its negation is the test of R161. -/
def keyMatches (s : State) (x : RegNum) : Bool := s.key == some (keyOperand s x)

/-- `px = vx mod 64` and `py = vy mod 32`, the sprite's origin (44_display.md R152). -/
def originCol (b : Byte) : Nat := b.toNat % Config.fbWidth
def originRow (b : Byte) : Nat := b.toNat % Config.fbHeight

end Sys2Proof.Machine
end

