-- ==== Sys2Proof/Machine/Flags.lean ====
section
/-! DEFINITION. VF and every flag computation (spec/10_state.md R12, R13; spec/42_alu.md R132, R133). -/

namespace Sys2Proof.Machine

/-- The byte of a flag: 1 or 0. -/
def flagByte (b : Bool) : Byte := if b then 1#8 else 0#8

/-- `VF <- 1 if b else 0`. -/
def State.setFlag (s : State) (b : Bool) : State := s.setReg vf (flagByte b)

/-- The result is written to `V[x]`, then the flag to VF, so that with `x = 15` the flag is what remains
(42_alu.md R133). -/
def State.setRegThenFlag (s : State) (x : RegNum) (b : Byte) (flag : Bool) : State :=
  (s.setReg x b).setFlag flag

/-- Carry of 8xy4: the unclamped sum exceeds 255 (42_alu.md R126). -/
def carry (a b : Byte) : Bool := decide (255 < a.toNat + b.toNat)

/-- No borrow of `a - b`: `a >= b` (42_alu.md R127, R129). -/
def noBorrow (a b : Byte) : Bool := decide (b.toNat ≤ a.toNat)

/-- The bit 8xy6 shifts out (42_alu.md R128). -/
def bitOutRight (b : Byte) : Bool := b.getLsbD 0

/-- The bit 8xyE shifts out (42_alu.md R130). -/
def bitOutLeft (b : Byte) : Bool := b.getLsbD 7

/-- After 8xy1, 8xy2, 8xy3: VF <- 0 when `Q.flag_reset_on_logic`, else VF is not written (42_alu.md R123 to R125). -/
def State.logicFlag (s : State) : State :=
  if s.q.flagResetOnLogic then s.setFlag false else s

/-- After Fx1E: VF <- 1 when `Q.index_overflow_flag` and the new `I` exceeds INDEX_OVERFLOW_LIMIT, else VF is not
written (43_index_and_memory.md R141). -/
def State.indexFlag (s : State) : State :=
  if s.q.indexOverflowFlag ∧ s.indexLimit < s.i.toNat then s.setFlag true else s

end Sys2Proof.Machine
end

