-- ==== Sys2Proof/Machine/Alu.lean ====
section
/-! DEFINITION. Register file and ALU (spec/42_alu.md). Operands are read from the state before the instruction, then
the result is written, then the flag (R133). -/

namespace Sys2Proof.Machine

/-- An ALU instruction of a STEP that began in `s`: it goes on at the next address. -/
def aluCommit (s s' : State) : Result := commit s s' (nextPc s)

/-- `LD Vx, nn` (R120). -/
def execLdImm (x : RegNum) (nn : Byte) (s : State) : Result := aluCommit s (s.setReg x nn)

/-- `ADD Vx, nn` (R121): no flag. -/
def execAddImm (x : RegNum) (nn : Byte) (s : State) : Result :=
  aluCommit s (s.setReg x (s.reg x + nn))

/-- `LD Vx, Vy` (R122). -/
def execLdReg (x y : RegNum) (s : State) : Result := aluCommit s (s.setReg x (s.reg y))

/-- `OR Vx, Vy` (R123). -/
def execOr (x y : RegNum) (s : State) : Result :=
  aluCommit s (s.setReg x (s.reg x ||| s.reg y)).logicFlag

/-- `AND Vx, Vy` (R124). -/
def execAnd (x y : RegNum) (s : State) : Result :=
  aluCommit s (s.setReg x (s.reg x &&& s.reg y)).logicFlag

/-- `XOR Vx, Vy` (R125). -/
def execXor (x y : RegNum) (s : State) : Result :=
  aluCommit s (s.setReg x (s.reg x ^^^ s.reg y)).logicFlag

/-- `ADD Vx, Vy` (R126): the sum modulo 256, then the carry. -/
def execAddReg (x y : RegNum) (s : State) : Result :=
  aluCommit s (s.setRegThenFlag x (s.reg x + s.reg y) (carry (s.reg x) (s.reg y)))

/-- `SUB Vx, Vy` (R127): `V[x] - V[y]`. -/
def execSub (x y : RegNum) (s : State) : Result :=
  aluCommit s (s.setRegThenFlag x (s.reg x - s.reg y) (noBorrow (s.reg x) (s.reg y)))

/-- `SHR Vx, Vy` (R128). -/
def execShr (x y : RegNum) (s : State) : Result :=
  aluCommit s (s.setRegThenFlag x (shiftOperand s x y >>> 1) (bitOutRight (shiftOperand s x y)))

/-- `SUBN Vx, Vy` (R129): `V[y] - V[x]`. -/
def execSubn (x y : RegNum) (s : State) : Result :=
  aluCommit s (s.setRegThenFlag x (s.reg y - s.reg x) (noBorrow (s.reg y) (s.reg x)))

/-- `SHL Vx, Vy` (R130). -/
def execShl (x y : RegNum) (s : State) : Result :=
  aluCommit s (s.setRegThenFlag x (shiftOperand s x y <<< 1) (bitOutLeft (shiftOperand s x y)))

/-- `RND Vx, nn` (R131) with the byte `draw` as the argument of its STEP (10_state.md R28). -/
def rndWith (draw : Byte) (x : RegNum) (nn : Byte) (s : State) : Result :=
  aluCommit s { s.setReg x (draw &&& nn) with draws := s.draws + 1 }

/-- `RND Vx, nn` (R131): the draw is the free value of this Cxnn (log 8). -/
def execRnd (x : RegNum) (nn : Byte) (s : State) : Result :=
  rndWith (Config.rndDraw s.draws) x nn s

end Sys2Proof.Machine
end

