-- ==== Sys2Proof/Machine/Control.lean ====
section
/-! DEFINITION. Control transfer (spec/41_control_transfer.md). -/

namespace Sys2Proof.Machine

/-- `RET` (R100): the popped address plus 2. -/
def execRet (s : State) : Result :=
  attempt s (pop s) fun r => commit s r.2 (r.1.toNat + 2)

/-- `JP nnn` (R101). -/
def execJp (nnn : Addr12) (s : State) : Result := commit s s nnn.toNat

/-- `CALL nnn` (R102): pushes the address of the CALL itself. -/
def execCall (nnn : Addr12) (s : State) : Result :=
  attempt s (push s s.pc) fun s' => commit s s' nnn.toNat

/-- `SE Vx, nn` (R103). -/
def execSeImm (x : RegNum) (nn : Byte) (s : State) : Result :=
  commit s s (skipPc s (s.reg x == nn))

/-- `SNE Vx, nn` (R104). -/
def execSneImm (x : RegNum) (nn : Byte) (s : State) : Result :=
  commit s s (skipPc s (s.reg x != nn))

/-- `SE Vx, Vy` (R105). -/
def execSeReg (x y : RegNum) (s : State) : Result :=
  commit s s (skipPc s (s.reg x == s.reg y))

/-- `SNE Vx, Vy` (R106). -/
def execSneReg (x y : RegNum) (s : State) : Result :=
  commit s s (skipPc s (s.reg x != s.reg y))

/-- `JP V0, nnn` (R107). -/
def execJpOffset (nnn : Addr12) (s : State) : Result := commit s s (jumpOffsetTarget s nnn)

end Sys2Proof.Machine
end

