-- ==== Sys2Proof/Machine/Display.lean ====
section
/-! DEFINITION. Display instructions and the sprite engine (spec/44_display.md). -/

namespace Sys2Proof.Machine

/-- `CLS` (R150). -/
def execCls (s : State) : Result :=
  commit s { s with fb := Vector.replicate 32 0#64 } (nextPc s)

/-- What the sprite engine works on: the picture and the flag, which starts at 0 and is never cleared within a draw
(R152). -/
structure Canvas where
  fb : Framebuffer
  hit : Bool
  deriving DecidableEq, Repr

/-- Toggle the target pixel; a transition from 1 to 0 sets the flag (R152). -/
def Canvas.toggle (cv : Canvas) (r c : Nat) : Canvas where
  fb := setPixel cv.fb r c (!pixel cv.fb r c)
  hit := cv.hit || pixel cv.fb r c

/-- The columns `col, col + 1, ...` (`k` of them) of one sprite row `b`, drawn on row `r` from column `px`. The answer's
second part says that a column lay beyond the last one, which aborts the whole draw; the test comes before the bit is
looked at, set or clear (R152; log 11). Bit 7 is the leftmost pixel: PRESUMED, unsafe, the spec has it from general
knowledge (93_implementation_defined.md G8; log 13). -/
def drawCols (b : Byte) (r px : Nat) : Nat → Nat → Canvas → Canvas × Bool
  | 0, _, cv => (cv, false)
  | k + 1, col, cv =>
    if Config.fbWidth ≤ px + col then (cv, true)
    else drawCols b r px k (col + 1) (if b.getLsbD (7 - col) then cv.toggle r (px + col) else cv)

/-- The sprite rows `row, row + 1, ...` (`k` of them): a row below the last one stops the draw and is not read; a column
abort stops it too (R152). -/
def drawRows (m : Memory) (addr px py : Nat) : Nat → Nat → Canvas → Except Stop Canvas
  | 0, _, cv => .ok cv
  | k + 1, row, cv =>
    if Config.fbHeight ≤ py + row then .ok cv
    else
      match memRead m (addr + row) with
      | .error e => .error e
      | .ok b =>
        match drawCols b (py + row) px 8 0 cv with
        | (cv', true) => .ok cv'
        | (cv', false) => drawRows m addr px py k (row + 1) cv'

/-- `DrawSprite(size, addr, vx, vy)` (R152): the draw, then the origin pixel forced to 1 in every case. -/
def drawSprite (s : State) (size : Nibble) (vx vy : Byte) : Except Stop Canvas :=
  match drawRows s.mem (dataAddr s) (originCol vx) (originRow vy) size.toNat 0 { fb := s.fb, hit := false } with
  | .error e => .error e
  | .ok cv => .ok { cv with fb := setPixel cv.fb (originRow vy) (originCol vx) true }

/-- `DRW Vx, Vy, n` (R151): the coordinates are read before VF is cleared. -/
def execDrw (x y : RegNum) (n : Nibble) (s : State) : Result :=
  attempt s (drawSprite s n (s.reg x) (s.reg y)) fun cv =>
    commit s (State.setFlag { s with fb := cv.fb } cv.hit) (nextPc s)

end Sys2Proof.Machine
end

