-- ==== Sys2Proof/Machine/IndexMemory.lean ====
section
/-! DEFINITION. The index register and the memory instructions (spec/43_index_and_memory.md). -/

namespace Sys2Proof.Machine

/-- `LD I, nnn` (R140). -/
def execLdI (nnn : Addr12) (s : State) : Result :=
  commit s { s with i := indexOfImm nnn } (nextPc s)

/-- `ADD I, Vx` (R141): the sum modulo 65536, then the flag under its strap. -/
def execAddI (x : RegNum) (s : State) : Result :=
  commit s (State.indexFlag { s with i := s.i + (s.reg x).setWidth 16 }) (nextPc s)

/-- `LD F, Vx` (R142). -/
def execLdFont (x : RegNum) (s : State) : Result :=
  commit s { s with i := glyphAddr (s.reg x) } (nextPc s)

/-- `LD B, Vx` (R143). -/
def execLdBcd (x : RegNum) (s : State) : Result :=
  attempt s (memWriteBytes s.mem (dataAddr s) (bcdDigits (s.reg x))) fun m =>
    commit s { s with mem := m } (nextPc s)

/-- `LD [I], Vx` (R144). -/
def execStoreRegs (x : RegNum) (s : State) : Result :=
  attempt s (memWriteBytes s.mem (dataAddr s) (regsUpTo s x)) fun m =>
    commit s { s with mem := m, i := indexAfterBlock s x } (nextPc s)

/-- `LD Vx, [I]` (R145). -/
def execLoadRegs (x : RegNum) (s : State) : Result :=
  attempt s (memReadBytes s.mem (dataAddr s) (x.toNat + 1)) fun bs =>
    commit s { s with v := setRegsFrom s.v 0 bs, i := indexAfterBlock s x } (nextPc s)

end Sys2Proof.Machine
end

