-- ==== Sys2Proof/Machine/KeypadTimers.lean ====
section
/-! DEFINITION. Keypad and timer instructions (spec/45_keypad_and_timers.md). Which of Fx07, Fx15 and Fx18 does what is
PRESUMED, unsafe: the spec has it from general knowledge (93_implementation_defined.md G9; log 13). -/

namespace Sys2Proof.Machine

/-- `SKP Vx` (R160): the latch is consumed, taken or not. -/
def execSkp (x : RegNum) (s : State) : Result :=
  commit s { s with key := none } (skipPc s (keyMatches s x))

/-- `SKNP Vx` (R161): the complement of SKP. -/
def execSknp (x : RegNum) (s : State) : Result :=
  commit s { s with key := none } (skipPc s (!keyMatches s x))

/-- `LD Vx, K` (R162): with no key the same instruction again. -/
def execLdKey (x : RegNum) (s : State) : Result :=
  match s.key with
  | some k => commit s { s.setReg x (k.setWidth 8) with key := none } (nextPc s)
  | none => commit s s s.pc.toNat

/-- `LD Vx, DT` (R163). -/
def execLdFromDt (x : RegNum) (s : State) : Result := commit s (s.setReg x s.dt) (nextPc s)

/-- `LD DT, Vx` (R164). -/
def execLdDt (x : RegNum) (s : State) : Result := commit s { s with dt := s.reg x } (nextPc s)

/-- `LD ST, Vx` (R165). -/
def execLdSt (x : RegNum) (s : State) : Result := commit s { s with st := s.reg x } (nextPc s)

end Sys2Proof.Machine
end

