-- ==== Sys2Proof/Machine/System.lean ====
section
/-! DEFINITION. Group 0 without CLS and RET: SYS (spec/40_step_and_dispatch.md R92). -/

namespace Sys2Proof.Machine

/-- `SYS nnn` (R92): the warning with the word as its info; the word's top digit is 0 (30_encoding.md R70). -/
def execSys (nnn : Addr12) (s : State) : Result :=
  commit s (s.warning .group0Unknown (nnn.setWidth 16)) (nextPc s)

end Sys2Proof.Machine
end

