-- ==== Sys2Proof/Machine/Transactions.lean ====
section
/-! DEFINITION. The seven transactions of spec/00_scope.md R6: STEP, TICK, FEED_KEY, LOAD_PROGRAM, RESET and the two
read-only ones, FB_VIEW and STATUS; and the cycle of the environment's contract. -/

namespace Sys2Proof.Machine

/-! ## STEP (40_step_and_dispatch.md R80) -/

/-- `MemRead(pc, 2)`, big-endian (20_memory.md R43); used only where both bytes are inside MEM. -/
def fetchWord (s : State) : Word := wordOfBytes (s.mem.read s.pc.toNat) (s.mem.read (s.pc.toNat + 1))

/-- Dispatch of a fetched word: its instruction, or UNKNOWN_OPCODE before any state is written (R84). -/
def runWord (w : Word) (s : State) : Result :=
  match decodeWord w with
  | .ok i => exec i s
  | .error _ => raiseFatal s { code := .unknownOpcode, info := w.toNat }

/-- STEP (R80), its checks in the order of R91: halted (R81), the fetch guard (R82), then the word. -/
def stepTransaction (s : State) : Result :=
  if s.err.isSome then .next s
  else if PcLegal s.pc.toNat then runWord (fetchWord s) s
  else raiseFatal s { code := .pcRange, info := s.pc.toNat }

/-- What STEP returns to the environment (R89). -/
inductive StepResult where
  | continued
  | fatal (f : Fatal)
  deriving DecidableEq, Repr

/-- The result of the STEP that left `s`: `continued`, or the fatal now in ERR (R89; R81 for a halted core). -/
def stepResult (s : State) : StepResult :=
  match s.err with
  | none => .continued
  | some f => .fatal f

/-! ## TICK and the cycle (60_exceptions.md R185, R186) -/

/-- "Decrements ... by 1 ..., floored at 0" (R185). -/
def countDown (b : Byte) : Byte := if b = 0#8 then 0#8 else b - 1#8

/-- TICK (R185): both timers, nothing else, whatever ERR holds. -/
def tick (s : State) : State := { s with dt := countDown s.dt, st := countDown s.st }

/-- `cycle = STEP ; TICK` (R186), after a fatal STEP too (log 1). -/
def cycle (s : State) : Result :=
  match stepTransaction s with
  | .next s' => .next (tick s')
  | .fault r => .fault r
  | .refused r => .refused r

/-! ## The host's transactions -/

/-- FEED_KEY(v) (60_exceptions.md R187): plain assignment. -/
def feedKey (k : Option Key) (s : State) : State := { s with key := k }

/-- The result of LOAD_PROGRAM (70_reset_and_hazards.md R204). -/
inductive LoadResult where
  | ok
  | tooLong
  deriving DecidableEq, Repr

/-- LOAD_PROGRAM(bytes) (70_reset_and_hazards.md R204): a program that is too long writes nothing. -/
def loadProgram (bytes : List Byte) (s : State) : LoadResult × State :=
  if bytes.length ≤ Config.memSize - Config.progBase then
    (.ok, { s with mem := s.mem.place Config.progBase bytes })
  else (.tooLong, s)

/-- RESET(Q, FONT, LABEL) (70_reset_and_hazards.md R200, R202), whatever the state before. The two parameters of the
hardware stay, STACK_CAPACITY (the length of `stk`) and INDEX_OVERFLOW_LIMIT, and so does the model's own counter of
draws (logs 3, 4, 8). -/
def reset (q : Quirks) (font label : Vector Byte 80) (s : State) : State :=
  { State.reset with
    q := q
    mem := Memory.place [] Config.labelBase (label.toList ++ font.toList)
    stk := List.replicate s.stk.length 0#16
    indexLimit := s.indexLimit
    draws := s.draws }

/-- FB_VIEW (60_exceptions.md R188). -/
def fbView (s : State) : Framebuffer := s.fb

/-- What STATUS returns (60_exceptions.md R189). -/
structure Status where
  pc : Word
  dt : Byte
  st : Byte
  warn : Option Warning
  err : Option Fatal
  deriving DecidableEq, Repr

/-- STATUS (60_exceptions.md R189). -/
def status (s : State) : Status :=
  { pc := s.pc, dt := s.dt, st := s.st, warn := s.warn, err := s.err }

/-- A transaction the block accepts (00_scope.md R6). STEP's argument `rnd` is the free value of log 8. -/
inductive Transaction where
  | reset (q : Quirks) (font label : Vector Byte 80)
  | loadProgram (bytes : List Byte)
  | step
  | tick
  | feedKey (k : Option Key)
  | fbView
  | status
  deriving DecidableEq, Repr

/-- The effect of a transaction on the state; each is atomic (00_scope.md R6). -/
def transact (t : Transaction) (s : State) : Result :=
  match t with
  | .reset q font label => .next (reset q font label s)
  | .loadProgram bytes => .next (loadProgram bytes s).2
  | .step => stepTransaction s
  | .tick => .next (tick s)
  | .feedKey k => .next (feedKey k s)
  | .fbView => .next s
  | .status => .next s

/-- A sequence of transactions in the order of issue (60_exceptions.md R179), stopping where one has no next state. -/
def transactAll : List Transaction → State → Result
  | [], s => .next s
  | t :: ts, s =>
    match transact t s with
    | .next s' => transactAll ts s'
    | .fault r => .fault r
    | .refused r => .refused r

/-! ## Placing a word where the next STEP fetches (log 2) -/

/-- `s` with the two bytes of a word at `pc` and `pc + 1`, the high byte first. -/
def placeWord (s : State) (w : Word) : State :=
  { s with mem := s.mem.place s.pc.toNat (bytesOfWord w) }

end Sys2Proof.Machine
end

