-- ==== Sys2Proof/Machine/Step.lean ====
section
/-! DEFINITION. The step of the machine. -/

namespace Sys2Proof.Machine

/-- One cycle of the environment's contract, STEP then TICK: "A model of a program under this environment uses `cycle`
as its step" (spec/60_exceptions.md R186; log 1). STEP alone is `stepTransaction`. -/
def step (s : State) : Host.Outcome State Fault Refusal := cycle s

/-- `s` with the instruction word `w`, numbered as spec/opcode_table.json numbers it, stored where the next step
fetches: at `pc` (log 2). -/
def State.withFetchWord (s : State) (nbits w : Nat) : State := placeWord s (tableWord nbits w)

end Sys2Proof.Machine
end

