-- ==== Sys2Proof/Safety.lean ====
section
/-! DEFINITION. What a good state, a safe run and the end of a program are, in the terms the statements use. -/

namespace Sys2Proof.Machine

/-- The invariants of spec/10_state.md R29 that the types do not already give: `pc` legal unless halted (R15),
`0 <= SP <= STACK_CAPACITY` (R17), and memory in its canonical form. -/
structure State.Good (s : State) : Prop where
  pc_legal : s.err = none → PcLegal s.pc.toNat
  sp_le : s.sp ≤ s.stk.length
  mem_wf : s.mem.wf

/-- The core is halted (60_exceptions.md R180, R181): a dead end that only RESET leaves. -/
abbrev State.Halted (s : State) : Prop := s.err ≠ none

/-- A run of `k` cycles that raises no fatal (40_step_and_dispatch.md R89: every STEP returns `continued`). -/
def SafeFor : Nat → State → Prop
  | 0, s => s.err = none
  | k + 1, s => s.err = none ∧ ∃ t, step s = .next t ∧ SafeFor k t

/-! ## The end of a program

The core has no halt instruction, and "A model must therefore define the end of a program itself, for example as reaching
a designated `JP`-to-self at a stated address" (70_reset_and_hazards.md R207, decision D1). The definitions below are this
model's (log 14, DESIGN CHOICE), after that example. -/

/-- The program has ended at the stated address `a`: the core runs (a halted one is "never a successful end of a program",
60_exceptions.md R181), stands at `a`, and the word there is the jump to `a` itself (41_control_transfer.md R101). Which
address `a` is a program's end is for a claim about that program to state. -/
structure State.EndedAt (a : Nat) (s : State) : Prop where
  running : s.err = none
  at_end : s.pc.toNat = a
  legal : PcLegal a
  jumps_to_itself : decodeWord (fetchWord s) = .ok (.jp (BitVec.ofNat 12 a))

/-- The program ends at `a` after at most `k` cycles of STEP and TICK (60_exceptions.md R186). No cycle before the end
raised a fatal, since a halted core stays halted. -/
def EndsWithin (a : Nat) : Nat → State → Prop
  | 0, s => s.EndedAt a
  | k + 1, s => s.EndedAt a ∨ ∃ t, step s = .next t ∧ EndsWithin a k t

end Sys2Proof.Machine
end

