-- ==== Sys2Proof/Certificates/Slice0/Obligations.lean ====
section
/-! DEFINITION. The statements about the model, for the provers: spec/'s rules in the terms of the machine.

In every statement PC_RANGE, MEM_RANGE and STACK_OVERFLOW, what a fatal leaves (it discards the STEP's effects), and
the infos of ERR are the spec's own decisions D5 to D9 (spec/92_eei_decisions.md), not the source's. -/

open Sys2Proof Sys2Proof.Machine

namespace Sys2Proof.Claims

/-! ## The words of the statements -/

/-- The parts of the state (10_state.md R10; `config` is Q and the two parameters of the hardware; `draws` is the model's). -/
inductive Part where
  | regs | pc | index | stack | dt | st | key | err | warn | config | mem | fb | draws
  deriving DecidableEq, Repr

/-- A part has the same contents in two states. Memory is compared byte by byte, the framebuffer cell by cell. -/
def Same : Part → State → State → Prop
  | .regs, s, t => ∀ r : RegNum, t.reg r = s.reg r
  | .pc, s, t => t.pc = s.pc
  | .index, s, t => t.i = s.i
  | .stack, s, t => t.sp = s.sp ∧ t.stk = s.stk
  | .dt, s, t => t.dt = s.dt
  | .st, s, t => t.st = s.st
  | .key, s, t => t.key = s.key
  | .err, s, t => t.err = s.err
  | .warn, s, t => t.warn = s.warn
  | .config, s, t => t.q = s.q ∧ t.indexLimit = s.indexLimit ∧ t.stk.length = s.stk.length
  | .mem, s, t => ∀ a : Nat, t.mem.read a = s.mem.read a
  | .fb, s, t => ∀ r c : Nat, pixel t.fb r c = pixel s.fb r c
  | .draws, s, t => t.draws = s.draws

/-- Every part but the listed ones is unchanged. -/
def KeepsAllBut (ps : List Part) (s t : State) : Prop := ∀ p : Part, p ∉ ps → Same p s t

/-- Every general register but the listed ones is unchanged. -/
def RegsKeptBut (xs : List RegNum) (s t : State) : Prop := ∀ r : RegNum, r ∉ xs → t.reg r = s.reg r

/-- The state of a STEP that began in `s` and raised a fatal while ERR was none: only ERR differs (40_step_and_dispatch.md R90). -/
def withFatal (s : State) (code : FatalCode) (info : Nat) : State :=
  { s with err := some { code := code, info := info } }

/-- `V[x] << 8` and the other fields at their places in a word (30_encoding.md R61, R78). -/
def atX (x : RegNum) : Word := x.setWidth 16 <<< 8
def atY (y : RegNum) : Word := y.setWidth 16 <<< 4

/-- What a register-only instruction leaves when it completes: `V[x]` holds `result`, no other register and nothing but
the registers and `pc` changes, and it goes on at the next address. -/
def LoadsOnly (x : RegNum) (result : Byte) (s t : State) : Prop :=
  t.reg x = result ∧ RegsKeptBut [x] s t ∧ KeepsAllBut [.regs, .pc] s t ∧ t.pc.toNat = s.pc.toNat + 2

/-- The same for an instruction that always writes the flag: with `x = 15` VF ends as the flag (42_alu.md R133). -/
def LoadsWithFlag (x : RegNum) (result : Byte) (flag : Bool) (s t : State) : Prop :=
  t.reg 15#4 = (if flag then 1#8 else 0#8) ∧ (x ≠ 15#4 → t.reg x = result)
    ∧ RegsKeptBut [x, 15#4] s t ∧ KeepsAllBut [.regs, .pc] s t ∧ t.pc.toNat = s.pc.toNat + 2

/-! ## The opcode map (30_encoding.md R75) -/

/-- A row of the table of 30_encoding.md R75: mask, match, and the instruction with its fields cut from the word. -/
structure MapRow where
  mask : Word
  code : Word
  build : Word → Instr

/-- `w AND mask = match`. -/
def MapRow.selects (r : MapRow) (w : Word) : Prop := w &&& r.mask = r.code

/-- Rows 1 to 9 and 20 to 24 of R75: the groups with one instruction, and group 0. -/
def wholeGroupRows : List MapRow :=
  [⟨0xF000, 0x0000, fun w => .sys (nnnOf w)⟩, ⟨0xFFFF, 0x00E0, fun _ => .cls⟩, ⟨0xFFFF, 0x00EE, fun _ => .ret⟩,
   ⟨0xF000, 0x1000, fun w => .jp (nnnOf w)⟩, ⟨0xF000, 0x2000, fun w => .call (nnnOf w)⟩,
   ⟨0xF000, 0x3000, fun w => .seImm (xOf w) (nnOf w)⟩, ⟨0xF000, 0x4000, fun w => .sneImm (xOf w) (nnOf w)⟩,
   ⟨0xF000, 0x5000, fun w => .seReg (xOf w) (yOf w)⟩, ⟨0xF000, 0x6000, fun w => .ldImm (xOf w) (nnOf w)⟩,
   ⟨0xF000, 0x7000, fun w => .addImm (xOf w) (nnOf w)⟩]
  ++ [⟨0xF000, 0x9000, fun w => .sneReg (xOf w) (yOf w)⟩, ⟨0xF000, 0xA000, fun w => .ldI (nnnOf w)⟩,
   ⟨0xF000, 0xB000, fun w => .jpOffset (nnnOf w)⟩, ⟨0xF000, 0xC000, fun w => .rnd (xOf w) (nnOf w)⟩,
   ⟨0xF000, 0xD000, fun w => .drw (xOf w) (yOf w) (nOf w)⟩]

/-- Rows 11 to 19 of R75: group 8. -/
def group8Rows : List MapRow :=
  [⟨0xF00F, 0x8000, fun w => .ldReg (xOf w) (yOf w)⟩, ⟨0xF00F, 0x8001, fun w => .or (xOf w) (yOf w)⟩,
   ⟨0xF00F, 0x8002, fun w => .and (xOf w) (yOf w)⟩, ⟨0xF00F, 0x8003, fun w => .xor (xOf w) (yOf w)⟩,
   ⟨0xF00F, 0x8004, fun w => .addReg (xOf w) (yOf w)⟩, ⟨0xF00F, 0x8005, fun w => .sub (xOf w) (yOf w)⟩,
   ⟨0xF00F, 0x8006, fun w => .shr (xOf w) (yOf w)⟩, ⟨0xF00F, 0x8007, fun w => .subn (xOf w) (yOf w)⟩,
   ⟨0xF00F, 0x800E, fun w => .shl (xOf w) (yOf w)⟩]

/-- Rows 25 to 35 of R75: groups E and F. -/
def groupEFRows : List MapRow :=
  [⟨0xF0FF, 0xE09E, fun w => .skp (xOf w)⟩, ⟨0xF0FF, 0xE0A1, fun w => .sknp (xOf w)⟩,
   ⟨0xF0FF, 0xF007, fun w => .ldFromDt (xOf w)⟩, ⟨0xF0FF, 0xF00A, fun w => .ldKey (xOf w)⟩,
   ⟨0xF0FF, 0xF015, fun w => .ldDt (xOf w)⟩, ⟨0xF0FF, 0xF018, fun w => .ldSt (xOf w)⟩,
   ⟨0xF0FF, 0xF01E, fun w => .addI (xOf w)⟩, ⟨0xF0FF, 0xF029, fun w => .ldFont (xOf w)⟩,
   ⟨0xF0FF, 0xF033, fun w => .ldBcd (xOf w)⟩, ⟨0xF0FF, 0xF055, fun w => .storeRegs (xOf w)⟩,
   ⟨0xF0FF, 0xF065, fun w => .loadRegs (xOf w)⟩]

/-- The 35 rows of R75. -/
def opcodeMap : List MapRow := wholeGroupRows ++ group8Rows ++ groupEFRows

/-! ## The tables of the spec over all instructions -/

/-- The sprite rows a draw processes (44_display.md R153). -/
def processedRows (px py n : Nat) : Nat :=
  if n = 0 then 0 else if 56 < px then 1 else min n (32 - py)

/-- A draw reads only bytes of MEM (44_display.md R153). -/
def SpriteReadable (s : State) (px py n : Nat) : Prop :=
  processedRows px py n = 0 ∨ s.i.toNat + processedRows px py n ≤ 4096

/-- The origin of a draw: `px = vx mod 64`, `py = vy mod 32` (44_display.md R152). -/
def drawCol (s : State) (x : RegNum) : Nat := (s.reg x).toNat % 64
def drawRow (s : State) (y : RegNum) : Nat := (s.reg y).toNat % 32

/-- Cell `(r, c)` is a drawn bit: it lies in a processed row, on the screen, and its sprite bit is 1, bit 7 leftmost
(44_display.md R152, R153; D15 is the spec's decision). -/
def Drawn (s : State) (px py n r c : Nat) : Prop :=
  py ≤ r ∧ r < py + processedRows px py n ∧ px ≤ c ∧ c < px + 8 ∧ c < 64
    ∧ (s.mem.read (s.i.toNat + (r - py))).getLsbD (7 - (c - px)) = true

/-- `pc_next` of each instruction (the table of 40_step_and_dispatch.md R86). -/
def pcNextOf (i : Instr) (s : State) : Nat :=
  match i with
  | .jp nnn => nnn.toNat
  | .call nnn => nnn.toNat
  | .ret => (s.stk.getD (s.sp - 1) 0).toNat + 2
  | .jpOffset nnn =>
    match s.q.jumpOffsetRegister with
    | .v0 => nnn.toNat + (s.reg 0#4).toNat
    | .vx => nnn.toNat + (s.reg (nnn.extractLsb' 8 4)).toNat
  | .seImm x nn => s.pc.toNat + (if s.reg x = nn then 4 else 2)
  | .sneImm x nn => s.pc.toNat + (if s.reg x = nn then 2 else 4)
  | .seReg x y => s.pc.toNat + (if s.reg x = s.reg y then 4 else 2)
  | .sneReg x y => s.pc.toNat + (if s.reg x = s.reg y then 2 else 4)
  | .skp x => s.pc.toNat + (if s.key = some ((s.reg x).setWidth 4) then 4 else 2)
  | .sknp x => s.pc.toNat + (if s.key = some ((s.reg x).setWidth 4) then 2 else 4)
  | .ldKey _ => s.pc.toNat + (if s.key = none then 0 else 2)
  | _ => s.pc.toNat + 2

/-- The instruction's own fault, if its operands raise one (40_step_and_dispatch.md R91 item 4; 60_exceptions.md R171;
the infos of 43_index_and_memory.md R143 to R145). -/
def ownFault (i : Instr) (s : State) : Option Fatal :=
  match i with
  | .ret => if s.sp = 0 then some { code := .stackUnderflow, info := s.pc.toNat } else none
  | .call _ => if s.sp = s.stk.length then some { code := .stackOverflow, info := s.pc.toNat } else none
  | .drw x y n =>
    let rows := processedRows (drawCol s x) (drawRow s y) n.toNat
    if 0 < rows ∧ 4096 < s.i.toNat + rows then some { code := .memRange, info := max s.i.toNat 4096 } else none
  | .ldBcd _ => if 4095 < s.i.toNat + 2 then some { code := .memRange, info := max s.i.toNat 4096 } else none
  | .storeRegs x | .loadRegs x =>
    if 4095 < s.i.toNat + x.toNat then some { code := .memRange, info := max s.i.toNat 4096 } else none
  | _ => none

/-- The parts of the state, beside ERR, that an instruction may write: 10_state.md R14, R16, R17, R20 to R22, R24, R27
and 20_memory.md R49. -/
def partsWritten : Instr → List Part
  | .sys _ => [.pc, .warn]
  | .cls => [.pc, .fb]
  | .ret | .call _ => [.pc, .stack]
  | .jp _ | .jpOffset _ | .seImm _ _ | .sneImm _ _ | .seReg _ _ | .sneReg _ _ => [.pc]
  | .ldImm _ _ | .addImm _ _ | .ldReg _ _ | .or _ _ | .and _ _ | .xor _ _ | .addReg _ _ | .sub _ _ | .shr _ _
  | .subn _ _ | .shl _ _ | .ldFromDt _ => [.pc, .regs]
  | .rnd _ _ => [.pc, .regs, .draws]
  | .ldI _ | .ldFont _ => [.pc, .index]
  | .addI _ => [.pc, .index, .regs]
  | .drw _ _ _ => [.pc, .regs, .fb]
  | .skp _ | .sknp _ => [.pc, .key]
  | .ldKey _ => [.pc, .regs, .key]
  | .ldDt _ => [.pc, .dt]
  | .ldSt _ => [.pc, .st]
  | .ldBcd _ => [.pc, .mem]
  | .storeRegs _ => [.pc, .mem, .index]
  | .loadRegs _ => [.pc, .regs, .index]

/-- The instruction may write the general register `r`: it is the destination, or it is VF and the row of the table of
10_state.md R13 applies. -/
def MayWriteReg (i : Instr) (s : State) (r : RegNum) : Prop :=
  match i with
  | .ldImm x _ | .addImm x _ | .ldReg x _ | .rnd x _ | .ldFromDt x | .ldKey x => r = x
  | .or x _ | .and x _ | .xor x _ => r = x ∨ (r = 15#4 ∧ s.q.flagResetOnLogic = true)
  | .addReg x _ | .sub x _ | .subn x _ | .shr x _ | .shl x _ => r = x ∨ r = 15#4
  | .drw _ _ _ => r = 15#4
  | .addI x => r = 15#4 ∧ s.q.indexOverflowFlag = true ∧ s.indexLimit < (s.i.toNat + (s.reg x).toNat) % 65536
  | .loadRegs x => r.toNat ≤ x.toNat
  | _ => False

end Sys2Proof.Claims

open Sys2Proof.Claims

/-! ## Encoding -/

/-- 30_encoding.md R78 and R61, inferred: decoding the bytes of any well-formed instruction, with any bytes after them,
gives it back and leaves the rest. -/
def Obligations.DecodeAfterEncodeReturnsInstruction : Prop :=
  ∀ (i : Instr) (rest : List Byte), i.wellFormed = true → decodeBytes (encodeBytes i ++ rest) = .ok (i, rest)

/-- 30_encoding.md R69, R78, inferred: a word that decodes is the encoding of what it decodes to, but for the low nibble
that groups 5 and 9 ignore (D11 is the spec's decision); what it decodes to is well-formed. -/
def Obligations.EncodeAfterDecodeReturnsWord : Prop :=
  ∀ (w : Word) (i : Instr), decodeWord w = .ok i →
    i.wellFormed = true ∧ encode i = (if opOf w = 5#4 ∨ opOf w = 9#4 then w &&& 0xFFF0#16 else w)

/-- 30_encoding.md R75: a word decodes to an instruction exactly when a row of the opcode map selects it, and where two
rows do, the row with the larger mask. (Group 0 on whole words is D10, groups 5 and 9 without `n` D11, the codes of Fx07,
Fx15 and Fx18 D14, decisions of the spec; these three and six codes of group 8 are its general knowledge, log 13.) -/
def Obligations.OpcodeMapRowSelectsInstruction : Prop :=
  ∀ (w : Word) (i : Instr), decodeWord w = .ok i ↔
    ∃ r ∈ opcodeMap, r.selects w ∧ (∀ r' ∈ opcodeMap, r'.selects w → r'.mask.toNat ≤ r.mask.toNat) ∧ r.build w = i

/-- A sanity check: words written out from 30_encoding.md R75 and R78 decode to the instructions they stand for. That 01E0
is SYS is decision D10 of the spec (log 9); that SHL has the code E is its general knowledge (G5; log 13, PRESUMED). -/
def Obligations.WrittenOutWordsDecode : Prop :=
  decodeWord 0x632A#16 = .ok (.ldImm 3#4 0x2A#8) ∧ decodeWord 0xD015#16 = .ok (.drw 0#4 1#4 5#4)
    ∧ decodeWord 0x00EE#16 = .ok .ret ∧ decodeWord 0x01E0#16 = .ok (.sys 0x1E0#12)
    ∧ decodeWord 0x812E#16 = .ok (.shl 1#4 2#4) ∧ decodeWord 0xF465#16 = .ok (.loadRegs 4#4)

/-- 60_exceptions.md R172: the words of 30_encoding.md R71 to R73 raise UNKNOWN_OPCODE before the instruction has any
effect, and the core is then halted; no other word raises it, group 0 never. That everything but ERR is as before, `pc`
at the unknown word included, is decision D8 of the spec, and that the info is the word decision D9 (log 9); that the codes
8xy0 to 8xy3, 8xy6, 8xyE, Fx07, Fx15 and Fx18 are not in the lists rests on log 13 (PRESUMED). -/
def Obligations.UnknownOpcodeRaisedByListedWordsOnly : Prop :=
  ∀ s : State, s.err = none → PcLegal s.pc.toNat →
    let w := fetchWord s
    let listed := (opOf w = 0x8#4 ∧ nOf w ∈ [0x8#4, 0x9#4, 0xA#4, 0xB#4, 0xC#4, 0xD#4, 0xF#4])
      ∨ (opOf w = 0xE#4 ∧ nnOf w ∉ [0x9E#8, 0xA1#8])
      ∨ (opOf w = 0xF#4 ∧ nnOf w ∉ [0x07#8, 0x0A#8, 0x15#8, 0x18#8, 0x1E#8, 0x29#8, 0x33#8, 0x55#8, 0x65#8])
    (listed → stepTransaction s = .next (withFatal s .unknownOpcode w.toNat)
        ∧ stepTransaction (withFatal s .unknownOpcode w.toNat) = .next (withFatal s .unknownOpcode w.toNat))
      ∧ (¬ listed → ∀ t info, stepTransaction s = .next t → t.err ≠ some { code := .unknownOpcode, info := info })

/-! ## The step -/

/-- 40_step_and_dispatch.md R80, R82, R84, with 20_memory.md R43 and 60_exceptions.md R186: where the bytes at `pc`, high
byte first, decode to `i`, STEP is `exec i`, and `step` is that followed by TICK (the model's choice, log 1). -/
def Obligations.StepRunsDecodedInstructionThenTicks : Prop :=
  ∀ (s : State) (i : Instr), s.err = none → PcLegal s.pc.toNat →
    decodeBytes [s.mem.read s.pc.toNat, s.mem.read (s.pc.toNat + 1)] = .ok (i, []) →
    stepTransaction s = exec i s
      ∧ step s = (match exec i s with
        | .next t => .next (tick t)
        | .fault r => .fault r
        | .refused r => .refused r)

/-- 40_step_and_dispatch.md R81: a STEP while ERR is set changes no state and returns the latched fatal. -/
def Obligations.HaltedStepChangesNothing : Prop :=
  ∀ (s : State) (f : Fatal), s.err = some f → stepTransaction s = .next s ∧ stepResult s = .fatal f

/-- 40_step_and_dispatch.md R82 (decision D7): a STEP at an odd `pc` or one above 4094 raises PC_RANGE with that `pc`. -/
def Obligations.FetchGuardRaisesPcRange : Prop :=
  ∀ s : State, s.err = none → (s.pc.toNat % 2 = 1 ∨ 4094 < s.pc.toNat) →
    stepTransaction s = .next (withFatal s .pcRange s.pc.toNat)

/-- 40_step_and_dispatch.md R90 (decision D8): a STEP that raises a fatal leaves everything but ERR as it was. -/
def Obligations.FatalStepChangesOnlyErr : Prop :=
  ∀ s t : State, s.err = none → stepTransaction s = .next t → t.err ≠ none → t = { s with err := t.err }

/-- 40_step_and_dispatch.md R86, R88, R91 (decisions D5 to D9): how every instruction ends. Its own fault comes first, then
the test of `pc_next`, then it commits at `pc_next`. `pc_next` of RET is decision D4, of JP V0 D33, of SKP and SKNP D35; that
a draw past column 56 processes one row, and so reads one byte, rests on log 11 (DEDUCED). -/
def Obligations.ExecEndsInTheOrderOfChecks : Prop :=
  ∀ (i : Instr) (s : State), s.err = none → s.sp ≤ s.stk.length →
    ∃ t, exec i s = .next t ∧
      (match ownFault i s with
      | some f => t = { s with err := some f }
      | none =>
        if pcNextOf i s % 2 = 0 ∧ pcNextOf i s ≤ 4094 then t.err = none ∧ t.pc.toNat = pcNextOf i s
        else t = withFatal s .pcRange (pcNextOf i s))

/-- 93_implementation_defined.md U13: the only stop of the machine is the refusal of CALL and RET in a state whose SP is
above STACK_CAPACITY, which no transaction reaches (log 10). -/
def Obligations.ExecRefusesOnlyStackBeyondCapacity : Prop :=
  (∀ (i : Instr) (s : State) (r : Refusal), exec i s = .refused r ↔
    r = .stackPointerBeyondCapacity ∧ s.stk.length < s.sp ∧ (i = .ret ∨ ∃ nnn, i = .call nnn))
  ∧ ∀ (i : Instr) (s : State) (f : Fault), exec i s ≠ .fault f

/-! ## Whole-machine rules -/

/-- 10_state.md R30: the state after reset meets the invariants of R29. -/
def Obligations.GoodAtReset : Prop := State.reset.Good

/-- 10_state.md R29: every step keeps the invariants: `pc` even and at most 4094 unless halted, `SP <= STACK_CAPACITY`,
memory in its canonical form (the model's). -/
def Obligations.StepKeepsGood : Prop :=
  ∀ s t : State, s.Good → step s = .next t → t.Good

/-- 10_state.md R29, 00_scope.md R6 (decisions D1, D32: seven transactions, each atomic, in the order of issue): from any
state that meets the invariants, every sequence of transactions completes and ends in one that does. Of the invariants,
the canonical form of memory is the model's own (log 12, DESIGN CHOICE). -/
def Obligations.EveryTransactionSequenceKeepsGood : Prop :=
  ∀ (ts : List Transaction) (s : State), s.Good → ∃ t, transactAll ts s = .next t ∧ t.Good

/-- 10_state.md R23, 60_exceptions.md R181: once ERR holds a fatal, RESET clears it and every other transaction leaves that
fatal there. (That RESET may be issued at any time is decision D1.) -/
def Obligations.ErrStaysLatchedUntilReset : Prop :=
  (∀ q font label (s t : State) (f : Fatal), s.err = some f → transact (.reset q font label) s = .next t → t.err = none)
  ∧ ∀ (tr : Transaction) (s t : State) (f : Fatal), (∀ q font label, tr ≠ .reset q font label) →
    s.err = some f → transact tr s = .next t → t.err = some f

/-- 70_reset_and_hazards.md R201: RESET samples the straps and clears the program; no other transaction changes them. -/
def Obligations.StrapsSampledByResetOnly : Prop :=
  (∀ q font label (s t : State), transact (.reset q font label) s = .next t →
    t.q = q ∧ ∀ a, 512 ≤ a → a < 4096 → t.mem.read a = 0#8)
  ∧ ∀ (tr : Transaction) (s t : State), (∀ q font label, tr ≠ .reset q font label) →
    transact tr s = .next t → t.q = s.q

/-- Every instruction's frame over the parts of the state (10_state.md R14, R16, R17, R20 to R22, R24, R27; 20_memory.md
R49), in particular: memory changes only by LD B and LD [I], the picture only by CLS and DRW, the stack only by CALL and
RET, the straps and parameters never. -/
def Obligations.InstructionsWriteOnlyTheirParts : Prop :=
  ∀ (i : Instr) (s t : State) (p : Part), exec i s = .next t → p ≠ .err → p ∉ partsWritten i → Same p s t

/-- 10_state.md R11, R13: the frame of every instruction over the general registers, VF among them. -/
def Obligations.InstructionsWriteOnlyTheirRegisters : Prop :=
  ∀ (i : Instr) (s t : State) (r : RegNum), exec i s = .next t → ¬ MayWriteReg i s r → t.reg r = s.reg r

/-- 60_exceptions.md R194: a program cannot read WARN or ST: with other values there, every instruction ends the same way
in every other part of the state. -/
def Obligations.WarnAndSoundTimerAreNeverRead : Prop :=
  ∀ (i : Instr) (s t : State) (w : Option Warning) (b : Byte), exec i s = .next t →
    ∃ t', exec i { s with warn := w, st := b } = .next t' ∧ { t' with warn := t.warn, st := t.st } = t

/-- 40_step_and_dispatch.md R93, 10_state.md R28: no instruction but RND depends on the draw (`draws` is the model's own
field, log 8). -/
def Obligations.OnlyRndReadsTheDraw : Prop :=
  ∀ (i : Instr) (s t : State) (k : Nat), (∀ x nn, i ≠ .rnd x nn) → exec i s = .next t →
    exec i { s with draws := k } = .next { t with draws := k }

/-! ## Group 0 and control transfer -/

/-- 40_step_and_dispatch.md R92 (decisions D10, D34): SYS warns with its word and goes on; nothing else changes. -/
def Obligations.SysWarnsAndContinues : Prop :=
  ∀ (nnn : Addr12) (s : State), PcLegal (s.pc.toNat + 2) →
    ∃ t, exec (.sys nnn) s = .next t
      ∧ t.warn = some { code := .group0Unknown, info := nnn.setWidth 16 }
      ∧ KeepsAllBut [.warn, .pc] s t ∧ t.pc.toNat = s.pc.toNat + 2

/-- 41_control_transfer.md R100 (decision D4): RET goes to the popped address plus 2 and takes one entry off the stack. -/
def Obligations.RetResumesAfterPoppedAddress : Prop :=
  ∀ (s : State) (a : Word), 0 < s.sp → s.stk[s.sp - 1]? = some a → PcLegal (a.toNat + 2) →
    ∃ t, exec .ret s = .next t ∧ t.pc.toNat = a.toNat + 2 ∧ t.sp = s.sp - 1 ∧ t.stk = s.stk
      ∧ KeepsAllBut [.pc, .stack] s t

/-- 60_exceptions.md R173: RET on the empty stack is fatal, raised before SP changes. -/
def Obligations.RetOnEmptyStackIsFatal : Prop :=
  ∀ s : State, s.err = none → s.sp = 0 →
    ∃ t info, exec .ret s = .next t ∧ t.err = some { code := .stackUnderflow, info := info } ∧ t.sp = s.sp

/-- 41_control_transfer.md R101: JP goes to an even `nnn` and writes nothing else; an odd one raises PC_RANGE with the
target (decision D7). -/
def Obligations.JumpGoesToEvenTarget : Prop :=
  ∀ (nnn : Addr12) (s : State),
    decodeWord (0x1000#16 ||| nnn.setWidth 16) = .ok (.jp nnn)
    ∧ (nnn.toNat % 2 = 0 →
      ∃ t, exec (.jp nnn) s = .next t ∧ t.pc.toNat = nnn.toNat ∧ KeepsAllBut [.pc] s t)
    ∧ (s.err = none → nnn.toNat % 2 = 1 → exec (.jp nnn) s = .next (withFatal s .pcRange nnn.toNat))

/-- 41_control_transfer.md R102 (decision D4): CALL pushes its own address and goes to `nnn`; the other entries stay. -/
def Obligations.CallPushesItsOwnAddress : Prop :=
  ∀ (nnn : Addr12) (s : State), s.sp < s.stk.length → nnn.toNat % 2 = 0 →
    ∃ t, exec (.call nnn) s = .next t ∧ t.pc.toNat = nnn.toNat ∧ t.sp = s.sp + 1
      ∧ t.stk[s.sp]? = some s.pc ∧ (∀ k, k ≠ s.sp → t.stk[k]? = s.stk[k]?)
      ∧ KeepsAllBut [.pc, .stack] s t

/-- 60_exceptions.md R174 (decision D5): CALL on a full stack raises STACK_OVERFLOW with its address; nothing is pushed. -/
def Obligations.CallOnFullStackIsFatal : Prop :=
  ∀ (nnn : Addr12) (s : State), s.err = none → s.sp = s.stk.length →
    exec (.call nnn) s = .next (withFatal s .stackOverflow s.pc.toNat)

/-- 41_control_transfer.md R100, R102 (decision D4): a RET whose stack is what a CALL left resumes after the CALL with the
stack pointer as before it, whatever the subroutine did elsewhere. -/
def Obligations.RetUndoesCall : Prop :=
  ∀ (nnn : Addr12) (s t u : State), s.err = none → s.sp ≤ s.stk.length → PcLegal (s.pc.toNat + 2) →
    exec (.call nnn) s = .next t → t.err = none → u.sp = t.sp → u.stk = t.stk →
    ∃ v, exec .ret u = .next v ∧ v.pc.toNat = s.pc.toNat + 2 ∧ v.sp = s.sp

/-- 41_control_transfer.md R103, R104, R108: the skips on an immediate go to `pc + 4` or `pc + 2` and change only `pc`; a
target that is no legal `pc` raises PC_RANGE (decision D7). -/
def Obligations.SkipsOnImmediateTestTheRegister : Prop :=
  ∀ (x : RegNum) (nn : Byte) (s : State),
    (∀ i p, (i = .seImm x nn ∧ p = s.pc.toNat + (if s.reg x = nn then 4 else 2))
        ∨ (i = .sneImm x nn ∧ p = s.pc.toNat + (if s.reg x = nn then 2 else 4)) →
      (PcLegal p → ∃ t, exec i s = .next t ∧ t.pc.toNat = p ∧ KeepsAllBut [.pc] s t)
      ∧ (s.err = none → ¬ PcLegal p → exec i s = .next (withFatal s .pcRange p)))
    ∧ decodeWord (0x3000#16 ||| atX x ||| nn.setWidth 16) = .ok (.seImm x nn)
    ∧ decodeWord (0x4000#16 ||| atX x ||| nn.setWidth 16) = .ok (.sneImm x nn)

/-- 41_control_transfer.md R105, R106, R108: the skips on two registers, every value of the ignored low nibble (D11);
a target that is no legal `pc` raises PC_RANGE (decision D7). -/
def Obligations.SkipsOnRegistersCompareThem : Prop :=
  ∀ (x y : RegNum) (n : Nibble) (s : State),
    (∀ i p, (i = .seReg x y ∧ p = s.pc.toNat + (if s.reg x = s.reg y then 4 else 2))
        ∨ (i = .sneReg x y ∧ p = s.pc.toNat + (if s.reg x = s.reg y then 2 else 4)) →
      (PcLegal p → ∃ t, exec i s = .next t ∧ t.pc.toNat = p ∧ KeepsAllBut [.pc] s t)
      ∧ (s.err = none → ¬ PcLegal p → exec i s = .next (withFatal s .pcRange p)))
    ∧ decodeWord (0x5000#16 ||| atX x ||| atY y ||| n.setWidth 16) = .ok (.seReg x y)
    ∧ decodeWord (0x9000#16 ||| atX x ||| atY y ||| n.setWidth 16) = .ok (.sneReg x y)

/-- 41_control_transfer.md R107 (decision D33): JP V0 adds V0 or, under its strap, the register named by the top digit of
the full `nnn`; the sum is not reduced, and one that is no legal `pc` raises PC_RANGE (D7). -/
def Obligations.OffsetJumpAddsTheStrapsRegister : Prop :=
  ∀ (nnn : Addr12) (s : State) (p : Nat),
    (s.q.jumpOffsetRegister = .v0 ∧ p = nnn.toNat + (s.reg 0#4).toNat)
      ∨ (s.q.jumpOffsetRegister = .vx ∧ p = nnn.toNat + (s.reg (nnn.extractLsb' 8 4)).toNat) →
    (PcLegal p → ∃ t, exec (.jpOffset nnn) s = .next t ∧ t.pc.toNat = p ∧ KeepsAllBut [.pc] s t)
    ∧ (s.err = none → ¬ PcLegal p → exec (.jpOffset nnn) s = .next (withFatal s .pcRange p))

/-! ## Register file and ALU -/

/-- 42_alu.md R120: LD Vx, nn. -/
def Obligations.LoadImmediateWritesVx : Prop :=
  ∀ (x : RegNum) (nn : Byte) (s : State), PcLegal (s.pc.toNat + 2) →
    decodeWord (0x6000#16 ||| atX x ||| nn.setWidth 16) = .ok (.ldImm x nn)
    ∧ ∃ t, exec (.ldImm x nn) s = .next t ∧ LoadsOnly x nn s t

/-- 42_alu.md R121: ADD Vx, nn wraps modulo 256 and touches no flag (with `x = 15` VF is the destination). -/
def Obligations.AddImmediateWrapsWithoutFlag : Prop :=
  ∀ (x : RegNum) (nn : Byte) (s : State), PcLegal (s.pc.toNat + 2) →
    decodeWord (0x7000#16 ||| atX x ||| nn.setWidth 16) = .ok (.addImm x nn)
    ∧ ∃ t, exec (.addImm x nn) s = .next t
      ∧ LoadsOnly x (BitVec.ofNat 8 (((s.reg x).toNat + nn.toNat) % 256)) s t

/-- 42_alu.md R122: LD Vx, Vy copies the register and writes no flag under any strap. That its code in group 8 is 0 is the
spec's general knowledge (G5; log 13, PRESUMED). -/
def Obligations.LoadRegisterCopiesVy : Prop :=
  ∀ (x y : RegNum) (s : State), PcLegal (s.pc.toNat + 2) →
    decodeWord (0x8000#16 ||| atX x ||| atY y) = .ok (.ldReg x y)
    ∧ ∃ t, exec (.ldReg x y) s = .next t ∧ LoadsOnly x (s.reg y) s t

/-- 42_alu.md R123 to R125: the three logic operations, bit by bit; VF is cleared after the result under
`Q.flag_reset_on_logic` and not written otherwise. That for `x = 15` the cleared flag is what remains is decision D12 (R133;
log 9); that the codes are 1, 2 and 3 is the spec's general knowledge (G5; log 13, PRESUMED). -/
def Obligations.LogicOperationsWriteVxAndStrappedFlag : Prop :=
  ∀ (x y : RegNum) (s : State), PcLegal (s.pc.toNat + 2) →
    ∀ (i : Instr) (code : Word) (bit : Bool → Bool → Bool),
      (i = .or x y ∧ code = 0x8001#16 ∧ bit = (· || ·)) ∨ (i = .and x y ∧ code = 0x8002#16 ∧ bit = (· && ·))
        ∨ (i = .xor x y ∧ code = 0x8003#16 ∧ bit = xor) →
      decodeWord (code ||| atX x ||| atY y) = .ok i
      ∧ ∃ t, exec i s = .next t
        ∧ (s.q.flagResetOnLogic = true → t.reg 15#4 = 0#8)
        ∧ (s.q.flagResetOnLogic = false → x ≠ 15#4 → t.reg 15#4 = s.reg 15#4)
        ∧ (s.q.flagResetOnLogic = false ∨ x ≠ 15#4 →
          ∀ k, k < 8 → (t.reg x).getLsbD k = bit ((s.reg x).getLsbD k) ((s.reg y).getLsbD k))
        ∧ RegsKeptBut [x, 15#4] s t ∧ KeepsAllBut [.regs, .pc] s t ∧ t.pc.toNat = s.pc.toNat + 2

/-- 42_alu.md R126: ADD Vx, Vy; VF is 1 exactly when the unclamped sum exceeds 255, and with `x = 15` the sum is lost: that
the flag wins there is decision D12 (R133; log 9). -/
def Obligations.AddRegistersSetsCarry : Prop :=
  ∀ (x y : RegNum) (s : State), PcLegal (s.pc.toNat + 2) →
    decodeWord (0x8004#16 ||| atX x ||| atY y) = .ok (.addReg x y)
    ∧ ∃ t, exec (.addReg x y) s = .next t
      ∧ LoadsWithFlag x (BitVec.ofNat 8 (((s.reg x).toNat + (s.reg y).toNat) % 256))
        (decide (255 < (s.reg x).toNat + (s.reg y).toNat)) s t

/-- 42_alu.md R127, R129, R132 (decisions D12, D30): SUB and SUBN; the difference modulo 256, VF is 1 exactly when the
minuend is at least the subtrahend. -/
def Obligations.SubtractionsSetNoBorrow : Prop :=
  ∀ (x y : RegNum) (s : State), PcLegal (s.pc.toNat + 2) →
    (∃ t, exec (.sub x y) s = .next t
      ∧ LoadsWithFlag x (BitVec.ofNat 8 (((s.reg x).toNat + 256 - (s.reg y).toNat) % 256))
        (decide ((s.reg y).toNat ≤ (s.reg x).toNat)) s t)
    ∧ ∃ t, exec (.subn x y) s = .next t
      ∧ LoadsWithFlag x (BitVec.ofNat 8 (((s.reg y).toNat + 256 - (s.reg x).toNat) % 256))
        (decide ((s.reg x).toNat ≤ (s.reg y).toNat)) s t

/-- 42_alu.md R128, R130: SHR and SHL of the strap's source by one position; VF is the bit shifted out. That for `x = 15` VF
ends as the flag is decision D12 (R133; log 9); that the codes are 6 and E is the spec's general knowledge (G5; log 13,
PRESUMED). -/
def Obligations.ShiftsMoveOneBitIntoFlag : Prop :=
  ∀ (x y : RegNum) (s : State) (v : Byte), PcLegal (s.pc.toNat + 2) →
    v = (match s.q.shiftSource with | .vy => s.reg y | .vx => s.reg x) →
    decodeWord (0x8006#16 ||| atX x ||| atY y) = .ok (.shr x y)
    ∧ decodeWord (0x800E#16 ||| atX x ||| atY y) = .ok (.shl x y)
    ∧ (∃ t, exec (.shr x y) s = .next t
      ∧ LoadsWithFlag x (BitVec.ofNat 8 (v.toNat / 2)) (decide (v.toNat % 2 = 1)) s t)
    ∧ ∃ t, exec (.shl x y) s = .next t
      ∧ LoadsWithFlag x (BitVec.ofNat 8 (v.toNat * 2 % 256)) (decide (128 ≤ v.toNat)) s t

/-- 42_alu.md R131 (decision D20): RND masks a free byte: bits clear in `nn` are clear in `V[x]`, and the byte is the next
draw, of which nothing is known (log 8). -/
def Obligations.RandomByteIsMasked : Prop :=
  ∀ (x : RegNum) (nn : Byte) (s : State), PcLegal (s.pc.toNat + 2) →
    ∃ t, exec (.rnd x nn) s = .next t ∧ t.reg x = Config.rndDraw s.draws &&& nn ∧ t.reg x &&& ~~~nn = 0#8
      ∧ RegsKeptBut [x] s t ∧ KeepsAllBut [.regs, .pc, .draws] s t ∧ t.pc.toNat = s.pc.toNat + 2

/-! ## Index register and memory -/

/-- 43_index_and_memory.md R140: LD I, nnn; bits 15:12 of `I` become 0. -/
def Obligations.LoadIndexWritesImmediate : Prop :=
  ∀ (nnn : Addr12) (s : State), PcLegal (s.pc.toNat + 2) →
    decodeWord (0xA000#16 ||| nnn.setWidth 16) = .ok (.ldI nnn)
    ∧ ∃ t, exec (.ldI nnn) s = .next t ∧ t.i.toNat = nnn.toNat
      ∧ KeepsAllBut [.index, .pc] s t ∧ t.pc.toNat = s.pc.toNat + 2

/-- 43_index_and_memory.md R141 (decision D13): ADD I, Vx modulo 65536; VF becomes 1 only under the strap and only when the
new `I` exceeds the limit, and is not written otherwise. -/
def Obligations.AddIndexSetsFlagPastLimit : Prop :=
  ∀ (x : RegNum) (s : State), PcLegal (s.pc.toNat + 2) →
    ∃ t, exec (.addI x) s = .next t ∧ t.i.toNat = (s.i.toNat + (s.reg x).toNat) % 65536
      ∧ (s.q.indexOverflowFlag = true ∧ s.indexLimit < t.i.toNat → t.reg 15#4 = 1#8)
      ∧ (¬ (s.q.indexOverflowFlag = true ∧ s.indexLimit < t.i.toNat) → t.reg 15#4 = s.reg 15#4)
      ∧ RegsKeptBut [15#4] s t ∧ KeepsAllBut [.index, .regs, .pc] s t ∧ t.pc.toNat = s.pc.toNat + 2

/-- 43_index_and_memory.md R142 (decision D26): LD F points `I` at `80 + 5 * V[x]`, the register not masked. -/
def Obligations.FontIndexIsFiveTimesRegister : Prop :=
  ∀ (x : RegNum) (s : State), PcLegal (s.pc.toNat + 2) →
    ∃ t, exec (.ldFont x) s = .next t ∧ t.i.toNat = 80 + (s.reg x).toNat * 5
      ∧ KeepsAllBut [.index, .pc] s t ∧ t.pc.toNat = s.pc.toNat + 2

/-- 43_index_and_memory.md R143: LD B stores hundreds, tens and units at `I`, `I + 1`, `I + 2` and nothing elsewhere; past
address 4095 it stores nothing and raises MEM_RANGE (decision D6). -/
def Obligations.BcdStoresThreeDigits : Prop :=
  ∀ (x : RegNum) (s : State),
    (s.i.toNat + 2 ≤ 4095 → PcLegal (s.pc.toNat + 2) →
      ∃ t, exec (.ldBcd x) s = .next t
        ∧ (t.mem.read (dataAddr s)).toNat = (s.reg x).toNat / 100
        ∧ (t.mem.read (dataAddr s + 1)).toNat = (s.reg x).toNat / 10 % 10
        ∧ (t.mem.read (dataAddr s + 2)).toNat = (s.reg x).toNat % 10
        ∧ (∀ a, a < dataAddr s ∨ dataAddr s + 2 < a → t.mem.read a = s.mem.read a)
        ∧ KeepsAllBut [.mem, .pc] s t ∧ t.pc.toNat = s.pc.toNat + 2)
    ∧ (s.err = none → 4095 < s.i.toNat + 2 → exec (.ldBcd x) s = .next (withFatal s .memRange (max s.i.toNat 4096)))

/-- 43_index_and_memory.md R144 (decisions D6, D26): LD [I] stores `V[0..x]` from `I` up and nothing elsewhere; `I` moves
by `x + 1` only under its strap; past address 4095 it stores nothing and raises MEM_RANGE. -/
def Obligations.StoreRegistersFillsMemoryFromIndex : Prop :=
  ∀ (x : RegNum) (s : State),
    (s.i.toNat + x.toNat ≤ 4095 → PcLegal (s.pc.toNat + 2) →
      ∃ t, exec (.storeRegs x) s = .next t
        ∧ (∀ r : RegNum, r.toNat ≤ x.toNat → t.mem.read (dataAddr s + r.toNat) = s.reg r)
        ∧ (∀ a, a < dataAddr s ∨ dataAddr s + x.toNat < a → t.mem.read a = s.mem.read a)
        ∧ t.i.toNat = s.i.toNat + (if s.q.indexAutoIncrement then x.toNat + 1 else 0)
        ∧ KeepsAllBut [.mem, .index, .pc] s t ∧ t.pc.toNat = s.pc.toNat + 2)
    ∧ (s.err = none → 4095 < s.i.toNat + x.toNat →
      exec (.storeRegs x) s = .next (withFatal s .memRange (max s.i.toNat 4096)))

/-- 43_index_and_memory.md R145 (decisions D6, D26): LD Vx, [I] loads `V[0..x]` from `I` up, memory unchanged; `I` moves by
`x + 1` only under its strap; past address 4095 it loads nothing and raises MEM_RANGE. -/
def Obligations.LoadRegistersReadsMemoryFromIndex : Prop :=
  ∀ (x : RegNum) (s : State),
    (s.i.toNat + x.toNat ≤ 4095 → PcLegal (s.pc.toNat + 2) →
      ∃ t, exec (.loadRegs x) s = .next t
        ∧ (∀ r : RegNum, r.toNat ≤ x.toNat → t.reg r = s.mem.read (s.i.toNat + r.toNat))
        ∧ (∀ r : RegNum, x.toNat < r.toNat → t.reg r = s.reg r)
        ∧ t.i.toNat = s.i.toNat + (if s.q.indexAutoIncrement then x.toNat + 1 else 0)
        ∧ KeepsAllBut [.regs, .index, .pc] s t ∧ t.pc.toNat = s.pc.toNat + 2)
    ∧ (s.err = none → 4095 < s.i.toNat + x.toNat →
      exec (.loadRegs x) s = .next (withFatal s .memRange (max s.i.toNat 4096)))

/-- 20_memory.md R53, inferred: two registers stored by LD [I] are the next word fetched from there, high byte first. -/
def Obligations.StoredRegistersAreFetched : Prop :=
  ∀ (x : RegNum) (s t : State), 1 ≤ x.toNat → exec (.storeRegs x) s = .next t → t.err = none →
    fetchWord { t with pc := s.i } = s.reg 0#4 ++ s.reg 1#4

/-- 20_memory.md R51, inferred: a byte read is the last one written there; a write leaves every other address alone. -/
def Obligations.MemoryReadsLastWrite : Prop :=
  ∀ (m : Memory) (a b : Nat) (v : Byte), (m.write a v).read b = if b = a then v else m.read b

/-- The model's canonical form (its own choice, log 12): two memories in it that read alike at every address are one. -/
def Obligations.CanonicalMemoryIsUnique : Prop :=
  ∀ m m' : Memory, m.wf → m'.wf → (∀ a, m.read a = m'.read a) → m = m'

/-! ## Display -/

/-- 44_display.md R150: CLS clears every cell and touches nothing else. -/
def Obligations.ClearScreenZeroesEveryCell : Prop :=
  ∀ s : State, PcLegal (s.pc.toNat + 2) →
    decodeWord 0x00E0#16 = .ok .cls
    ∧ ∃ t, exec .cls s = .next t ∧ (∀ r c, r < 32 → c < 64 → pixel t.fb r c = false)
      ∧ KeepsAllBut [.fb, .pc] s t ∧ t.pc.toNat = s.pc.toNat + 2

/-- 44_display.md R152, R153 (decisions D15, D16, D29): the closed form of a draw. Exactly the drawn bits toggle their
cells, the origin cell ends lit, and nothing but the picture, VF and `pc` changes. The bit order is also log 13 (PRESUMED);
that a draw past column 56 processes one row whatever its bits rests on log 11 (DEDUCED). -/
def Obligations.DrawTogglesExactlyTheDrawnBits : Prop :=
  ∀ (x y : RegNum) (n : Nibble) (s : State) (px py : Nat), px = drawCol s x → py = drawRow s y →
    PcLegal (s.pc.toNat + 2) → SpriteReadable s px py n.toNat →
    ∃ t, exec (.drw x y n) s = .next t
      ∧ pixel t.fb py px = true
      ∧ (∀ r c, r < 32 → c < 64 → ¬ (r = py ∧ c = px) →
        (Drawn s px py n.toNat r c → pixel t.fb r c = !pixel s.fb r c)
        ∧ (¬ Drawn s px py n.toNat r c → pixel t.fb r c = pixel s.fb r c))
      ∧ RegsKeptBut [15#4] s t ∧ KeepsAllBut [.fb, .regs, .pc] s t ∧ t.pc.toNat = s.pc.toNat + 2

/-- 44_display.md R154 (over the drawn bits of R152, decision D15, with the origin of D29): VF is 1 exactly when a drawn bit
turned a lit cell off; otherwise it is 0. The forced origin cell contributes nothing. The bit order is also log 13
(PRESUMED); that a draw past column 56 processes one row rests on log 11 (DEDUCED). -/
def Obligations.DrawFlagIsCollision : Prop :=
  ∀ (x y : RegNum) (n : Nibble) (s t : State) (px py : Nat), px = drawCol s x → py = drawRow s y →
    s.err = none → exec (.drw x y n) s = .next t → t.err = none →
    ((∃ r c, Drawn s px py n.toNat r c ∧ pixel s.fb r c = true) → t.reg 15#4 = 1#8)
    ∧ (¬ (∃ r c, Drawn s px py n.toNat r c ∧ pixel s.fb r c = true) → t.reg 15#4 = 0#8)

/-- 44_display.md R153: a draw of no rows reads no memory (any `I` will do), clears VF, lights the origin cell
and does nothing else. That the origin is lit for `n = 0` too is decision D16, and that a coordinate taken from VF is the
old VF decision D29 (log 9). -/
def Obligations.EmptyDrawLightsOriginOnly : Prop :=
  ∀ (x y : RegNum) (s : State) (px py : Nat), px = drawCol s x → py = drawRow s y → PcLegal (s.pc.toNat + 2) →
    ∃ t, exec (.drw x y 0#4) s = .next t ∧ t.reg 15#4 = 0#8
      ∧ (∀ r c, r < 32 → c < 64 → pixel t.fb r c = if r = py ∧ c = px then true else pixel s.fb r c)
      ∧ RegsKeptBut [15#4] s t ∧ KeepsAllBut [.fb, .regs, .pc] s t ∧ t.pc.toNat = s.pc.toNat + 2

/-! ## Keypad and timers -/

/-- 45_keypad_and_timers.md R160, R161 (decisions D19, D35): SKP skips exactly when the latch holds the register's low
nibble, SKNP exactly when it does not; both consume the latch; an illegal target raises PC_RANGE (D7). -/
def Obligations.KeySkipsTestAndConsumeLatch : Prop :=
  ∀ (x : RegNum) (s : State) (i : Instr) (p : Nat),
    (i = .skp x ∧ p = s.pc.toNat + (if s.key = some ((s.reg x).setWidth 4) then 4 else 2))
      ∨ (i = .sknp x ∧ p = s.pc.toNat + (if s.key = some ((s.reg x).setWidth 4) then 2 else 4)) →
    (PcLegal p → ∃ t, exec i s = .next t ∧ t.pc.toNat = p ∧ t.key = none ∧ KeepsAllBut [.key, .pc] s t)
    ∧ (s.err = none → ¬ PcLegal p → exec i s = .next (withFatal s .pcRange p))

/-- 45_keypad_and_timers.md R162: LD Vx, K takes the latched key and consumes it; with no key it changes nothing. -/
def Obligations.WaitForKeyTakesKeyOrStays : Prop :=
  ∀ (x : RegNum) (s : State),
    decodeWord (0xF00A#16 ||| atX x) = .ok (.ldKey x)
    ∧ (∀ k, s.key = some k → PcLegal (s.pc.toNat + 2) →
      ∃ t, exec (.ldKey x) s = .next t ∧ (t.reg x).toNat = k.toNat ∧ t.key = none ∧ RegsKeptBut [x] s t
        ∧ KeepsAllBut [.regs, .key, .pc] s t ∧ t.pc.toNat = s.pc.toNat + 2)
    ∧ (s.key = none → PcLegal s.pc.toNat → exec (.ldKey x) s = .next s)

/-- 45_keypad_and_timers.md R162, 60_exceptions.md R193, inferred: while no key is fed, a core at LD Vx, K stays there for
any number of cycles, safely, and only the timers move (each cycle ends with TICK, log 1). -/
def Obligations.WaitingForKeyOnlyCountsDown : Prop :=
  ∀ (k : Nat) (x : RegNum) (s : State), s.err = none → s.key = none → PcLegal s.pc.toNat →
    decodeWord (fetchWord s) = .ok (.ldKey x) →
    Host.Core.run Sys2Proof.core k s = .next (Nat.iterate tick k s) ∧ SafeFor k s

/-- 45_keypad_and_timers.md R163 to R165 (decision D14; log 13, PRESUMED): the three timer moves. -/
def Obligations.TimerMovesCopyTheByte : Prop :=
  ∀ (x : RegNum) (s : State), PcLegal (s.pc.toNat + 2) →
    (∃ t, exec (.ldFromDt x) s = .next t ∧ LoadsOnly x s.dt s t)
    ∧ (∃ t, exec (.ldDt x) s = .next t ∧ t.dt = s.reg x ∧ KeepsAllBut [.dt, .pc] s t
      ∧ t.pc.toNat = s.pc.toNat + 2)
    ∧ ∃ t, exec (.ldSt x) s = .next t ∧ t.st = s.reg x ∧ KeepsAllBut [.st, .pc] s t
      ∧ t.pc.toNat = s.pc.toNat + 2

/-! ## The other transactions -/

/-- 60_exceptions.md R185, R186 (decision D22): after `k` TICKs each timer has counted down by `k`, floored at 0, and
nothing else has changed, whatever ERR holds. -/
def Obligations.TicksCountTimersDownToZero : Prop :=
  ∀ (k : Nat) (s : State),
    (Nat.iterate tick k s).dt.toNat = s.dt.toNat - k ∧ (Nat.iterate tick k s).st.toNat = s.st.toNat - k
      ∧ KeepsAllBut [.dt, .st] s (Nat.iterate tick k s)

/-- 60_exceptions.md R187 (decision D19): FEED_KEY sets the latch, a key number or none, and nothing else. -/
def Obligations.FeedKeySetsLatchOnly : Prop :=
  ∀ (k : Option Key) (s : State), ∃ t, transact (.feedKey k) s = .next t ∧ t.key = k ∧ KeepsAllBut [.key] s t

/-- 70_reset_and_hazards.md R204 (decision D27): LOAD_PROGRAM puts the bytes at 512 and up and touches nothing else; more
than 3584 bytes are refused and nothing is written. -/
def Obligations.LoadProgramWritesItsBytesOnly : Prop :=
  ∀ (bytes : List Byte) (s : State),
    (bytes.length ≤ 3584 →
      (loadProgram bytes s).1 = .ok
      ∧ (∀ k b, bytes[k]? = some b → (loadProgram bytes s).2.mem.read (512 + k) = b)
      ∧ (∀ a, a < 512 ∨ 512 + bytes.length ≤ a → (loadProgram bytes s).2.mem.read a = s.mem.read a)
      ∧ KeepsAllBut [.mem] s (loadProgram bytes s).2)
    ∧ (3584 < bytes.length → loadProgram bytes s = (.tooLong, s))

/-- 70_reset_and_hazards.md R200: RESET(Q, FONT, LABEL) from any state, every piece of state. -/
def Obligations.ResetSetsEveryPieceOfState : Prop :=
  ∀ (q : Quirks) (font label : Vector Byte 80) (s : State),
    ∃ t, transact (.reset q font label) s = .next t
      ∧ (∀ r : RegNum, t.reg r = 0#8) ∧ t.i = 0#16 ∧ t.sp = 0 ∧ (∀ a ∈ t.stk, a = 0#16) ∧ t.dt = 0#8 ∧ t.st = 0#8
      ∧ (∀ r c, pixel t.fb r c = false) ∧ t.key = none ∧ t.err = none ∧ t.warn = none ∧ t.pc.toNat = 512
      ∧ (∀ (a : Nat) (h : a < 80), t.mem.read a = label[a] ∧ t.mem.read (80 + a) = font[a])
      ∧ (∀ a, 160 ≤ a → a < 4096 → t.mem.read a = 0#8) ∧ t.q = q

/-! ## The end of a program -/

/-- 70_reset_and_hazards.md R207 leaves the end of a program to the model: `State.EndedAt` and `EndsWithin` are this model's
choice (log 14). A program that has ended at `a` idles there for any number of cycles, safely and with only the timers
moving (each cycle ends with TICK, log 1); a halted core, at any `a`, never comes to an end (60_exceptions.md R181). -/
def Obligations.EndedProgramIdlesAndHaltedCoreNeverEnds : Prop :=
  ∀ (a k : Nat) (s : State),
    (s.EndedAt a →
      Host.Core.run Sys2Proof.core k s = .next (Nat.iterate tick k s) ∧ (Nat.iterate tick k s).EndedAt a ∧ SafeFor k s)
    ∧ (s.Halted → ¬ EndsWithin a k s)
end

