-- ==== Sys2Proof/Laws/Decode.lean ====
section
/-! SUPPORT. The fields of a word built by the encoder: each field of 30_encoding.md R61 of each operand placed by R78. -/

namespace Sys2Proof

/-! ## A field of an OR is the OR of the fields -/

@[simp] theorem opOf_or (a b : Word) : opOf (a ||| b) = opOf a ||| opOf b := by simp [opOf, BitVec.extractLsb'_or]
@[simp] theorem xOf_or (a b : Word) : xOf (a ||| b) = xOf a ||| xOf b := by simp [xOf, BitVec.extractLsb'_or]
@[simp] theorem yOf_or (a b : Word) : yOf (a ||| b) = yOf a ||| yOf b := by simp [yOf, BitVec.extractLsb'_or]
@[simp] theorem nOf_or (a b : Word) : nOf (a ||| b) = nOf a ||| nOf b := by simp [nOf, BitVec.extractLsb'_or]
@[simp] theorem nnOf_or (a b : Word) : nnOf (a ||| b) = nnOf a ||| nnOf b := by simp [nnOf, BitVec.extractLsb'_or]
@[simp] theorem nnnOf_or (a b : Word) : nnnOf (a ||| b) = nnnOf a ||| nnnOf b := by simp [nnnOf, BitVec.extractLsb'_or]

/-! ## The fields of each operand at its place -/

@[simp] theorem opOf_placeX : ∀ x : RegNum, opOf (placeX x) = 0#4 := by decide
@[simp] theorem xOf_placeX : ∀ x : RegNum, xOf (placeX x) = x := by decide
@[simp] theorem yOf_placeX : ∀ x : RegNum, yOf (placeX x) = 0#4 := by decide
@[simp] theorem nOf_placeX : ∀ x : RegNum, nOf (placeX x) = 0#4 := by decide
@[simp] theorem nnOf_placeX : ∀ x : RegNum, nnOf (placeX x) = 0#8 := by decide

@[simp] theorem opOf_placeY : ∀ y : RegNum, opOf (placeY y) = 0#4 := by decide
@[simp] theorem xOf_placeY : ∀ y : RegNum, xOf (placeY y) = 0#4 := by decide
@[simp] theorem yOf_placeY : ∀ y : RegNum, yOf (placeY y) = y := by decide
@[simp] theorem nOf_placeY : ∀ y : RegNum, nOf (placeY y) = 0#4 := by decide

@[simp] theorem opOf_placeN : ∀ n : Nibble, opOf (placeN n) = 0#4 := by decide
@[simp] theorem xOf_placeN : ∀ n : Nibble, xOf (placeN n) = 0#4 := by decide
@[simp] theorem yOf_placeN : ∀ n : Nibble, yOf (placeN n) = 0#4 := by decide
@[simp] theorem nOf_placeN : ∀ n : Nibble, nOf (placeN n) = n := by decide

@[simp] theorem opOf_placeNN (nn : Byte) : opOf (placeNN nn) = 0#4 := by
  apply BitVec.eq_of_toNat_eq
  have := nn.isLt
  simp [opOf, placeNN, BitVec.extractLsb'_toNat, Nat.shiftRight_eq_div_pow]
  omega

@[simp] theorem xOf_placeNN (nn : Byte) : xOf (placeNN nn) = 0#4 := by
  apply BitVec.eq_of_toNat_eq
  have := nn.isLt
  simp [xOf, placeNN, BitVec.extractLsb'_toNat, Nat.shiftRight_eq_div_pow]
  omega

@[simp] theorem nnOf_placeNN (nn : Byte) : nnOf (placeNN nn) = nn := by
  apply BitVec.eq_of_toNat_eq
  have := nn.isLt
  simp [nnOf, placeNN, BitVec.extractLsb'_toNat]
  omega

@[simp] theorem opOf_placeNNN (nnn : Addr12) : opOf (placeNNN nnn) = 0#4 := by
  apply BitVec.eq_of_toNat_eq
  have := nnn.isLt
  simp [opOf, placeNNN, BitVec.extractLsb'_toNat, Nat.shiftRight_eq_div_pow]
  omega

@[simp] theorem nnnOf_placeNNN (nnn : Addr12) : nnnOf (placeNNN nnn) = nnn := by
  apply BitVec.eq_of_toNat_eq
  have := nnn.isLt
  simp [nnnOf, placeNNN, BitVec.extractLsb'_toNat]
  omega

/-! ## The fields of a written-out word -/

@[simp] theorem opOf_ofNat (k : Nat) : opOf (BitVec.ofNat 16 k) = BitVec.ofNat 4 (k / 4096) := by
  apply BitVec.eq_of_toNat_eq
  simp only [opOf, BitVec.extractLsb'_toNat, BitVec.toNat_ofNat, Nat.shiftRight_eq_div_pow]
  omega

@[simp] theorem xOf_ofNat (k : Nat) : xOf (BitVec.ofNat 16 k) = BitVec.ofNat 4 (k / 256) := by
  apply BitVec.eq_of_toNat_eq
  simp only [xOf, BitVec.extractLsb'_toNat, BitVec.toNat_ofNat, Nat.shiftRight_eq_div_pow]
  omega

@[simp] theorem yOf_ofNat (k : Nat) : yOf (BitVec.ofNat 16 k) = BitVec.ofNat 4 (k / 16) := by
  apply BitVec.eq_of_toNat_eq
  simp only [yOf, BitVec.extractLsb'_toNat, BitVec.toNat_ofNat, Nat.shiftRight_eq_div_pow]
  omega

@[simp] theorem nOf_ofNat (k : Nat) : nOf (BitVec.ofNat 16 k) = BitVec.ofNat 4 k := by
  apply BitVec.eq_of_toNat_eq
  simp only [nOf, BitVec.extractLsb'_toNat, BitVec.toNat_ofNat, Nat.shiftRight_eq_div_pow]
  omega

@[simp] theorem nnOf_ofNat (k : Nat) : nnOf (BitVec.ofNat 16 k) = BitVec.ofNat 8 k := by
  apply BitVec.eq_of_toNat_eq
  simp only [nnOf, BitVec.extractLsb'_toNat, BitVec.toNat_ofNat, Nat.shiftRight_eq_div_pow]
  omega

@[simp] theorem nnnOf_ofNat (k : Nat) : nnnOf (BitVec.ofNat 16 k) = BitVec.ofNat 12 k := by
  apply BitVec.eq_of_toNat_eq
  simp only [nnnOf, BitVec.extractLsb'_toNat, BitVec.toNat_ofNat, Nat.shiftRight_eq_div_pow]
  omega

/-! ## A word is its fields (30_encoding.md R61) -/

theorem word_of_op_nnn (w : Word) : (opOf w).setWidth 16 <<< 12 ||| placeNNN (nnnOf w) = w := by
  ext k hk
  interval_cases k <;> simp [opOf, placeNNN, nnnOf]

theorem word_of_op_x_nn (w : Word) : (opOf w).setWidth 16 <<< 12 ||| placeX (xOf w) ||| placeNN (nnOf w) = w := by
  ext k hk
  interval_cases k <;> simp [opOf, placeX, xOf, placeNN, nnOf]

theorem word_of_op_x_y_n (w : Word) :
    (opOf w).setWidth 16 <<< 12 ||| placeX (xOf w) ||| placeY (yOf w) ||| placeN (nOf w) = w := by
  ext k hk
  interval_cases k <;> simp [opOf, placeX, xOf, placeY, yOf, placeN, nOf]

/-! ## The bytes of a word -/

/-- The two bytes of a word, put together as the hardware reads them, are the word (20_memory.md R43). -/
@[simp] theorem wordOfBytes_high_low (w : Word) : wordOfBytes (highByte w) (lowByte w) = w := by
  apply BitVec.eq_of_toNat_eq
  have := w.isLt
  have hl : (lowByte w).toNat < 2 ^ 8 := (lowByte w).isLt
  rw [wordOfBytes, BitVec.toNat_append, ← Nat.shiftLeft_add_eq_or_of_lt hl]
  simp only [highByte, lowByte, BitVec.extractLsb'_toNat, Nat.shiftLeft_eq, Nat.shiftRight_eq_div_pow]
  omega

/-- Decoding the bytes of a word is decoding the word. -/
theorem decodeBytes_bytesOfWord (w : Word) (rest : List Byte) :
    decodeBytes (bytesOfWord w ++ rest) = (decodeWord w).map fun i => (i, rest) := by
  simp [bytesOfWord, decodeBytes]

end Sys2Proof
end

