-- ==== Sys2Proof/Laws/Memory.lean ====
section
/-! SUPPORT. MEM: a read after a write, the canonical form, and that every memory operation keeps it. -/

namespace Sys2Proof.Machine

/-! ## The reset contents -/

@[simp] theorem length_defaultLabel : defaultLabel.length = 80 := List.length_replicate ..
@[simp] theorem length_defaultFont : defaultFont.length = 80 := rfl

/-- From address 160 up an unlisted byte reads as 0 (10_state.md R30). -/
theorem unlistedByte_of_ge {a : Nat} (h : 160 ≤ a) : unlistedByte a = 0#8 :=
  List.getD_eq_default _ _ (by simpa using h)

end Sys2Proof.Machine

namespace Sys2Proof.Machine.Memory

/-! ## The pieces of a write -/

theorem read_erase_same (m : Memory) (a : Nat) : (m.erase a).read a = unlistedByte a := by
  induction m with
  | nil => rfl
  | cons c m ih =>
    by_cases h : c.1 = a
    · simpa [erase, h] using ih
    · simpa [erase, h, read] using ih

theorem read_erase_other (m : Memory) {a b : Nat} (h : b ≠ a) : (m.erase a).read b = m.read b := by
  induction m with
  | nil => rfl
  | cons c m ih =>
    by_cases hc : c.1 = a
    · have hb : a ≠ b := Ne.symm h
      simpa [erase, hc, read, hb] using ih
    · by_cases hb : c.1 = b
      · simp [erase, read, hb, h]
      · simpa [erase, hc, read, hb] using ih

theorem read_insert_same (m : Memory) (a : Nat) (v : Byte) (h : ∀ c ∈ m, c.1 ≠ a) :
    (m.insert a v).read a = v := by
  induction m with
  | nil => simp [insert, read]
  | cons c m ih =>
    have hc : c.1 ≠ a := h c (by simp)
    by_cases hl : a < c.1
    · simp [insert, hl, read]
    · simp [insert, hl, read, hc, ih fun d hd => h d (by simp [hd])]

theorem read_insert_other (m : Memory) {a b : Nat} (v : Byte) (h : b ≠ a) : (m.insert a v).read b = m.read b := by
  induction m with
  | nil => simp [insert, read, Ne.symm h]
  | cons c m ih =>
    by_cases hl : a < c.1
    · simp [insert, hl, read, Ne.symm h]
    · simp [insert, hl, read, ih]

theorem mem_erase {m : Memory} {a : Nat} {c : Host.Cell} (h : c ∈ m.erase a) : c ∈ m ∧ c.1 ≠ a := by
  simpa [erase] using h

theorem mem_insert {m : Memory} {a : Nat} {v : Byte} {c : Host.Cell} (h : c ∈ m.insert a v) : c = (a, v) ∨ c ∈ m := by
  induction m with
  | nil => simpa [insert] using h
  | cons d m ih =>
    by_cases hl : a < d.1
    · simpa [insert, hl] using h
    · simp only [insert, hl, if_false, List.mem_cons] at h
      rcases h with h | h
      · simp [h]
      · rcases ih h with h | h <;> simp [h]

/-! ## A read after a write -/

@[simp] theorem read_write_same (m : Memory) (a : Nat) (v : Byte) : (m.write a v).read a = v := by
  unfold write
  split
  · next h => rw [read_erase_same, h]
  · exact read_insert_same _ a v fun c hc => (mem_erase hc).2

theorem read_write_other (m : Memory) {a b : Nat} (v : Byte) (h : b ≠ a) : (m.write a v).read b = m.read b := by
  unfold write
  split
  · exact read_erase_other m h
  · rw [read_insert_other _ v h, read_erase_other m h]

/-- What `Memory.place` leaves at every address. -/
theorem read_place (m : Memory) (a : Nat) (bs : List Byte) (b : Nat) :
    (m.place a bs).read b = if a ≤ b then bs.getD (b - a) (m.read b) else m.read b := by
  induction bs generalizing m a with
  | nil => simp [place]
  | cons v bs ih =>
    simp only [place, ih]
    rcases Nat.lt_trichotomy a b with h | h | h
    · have e : b - a = (b - (a + 1)) + 1 := by omega
      rw [if_pos (by omega), if_pos (by omega), e, read_write_other m v (by omega)]
      simp
    · subst h
      simp
    · rw [if_neg (by omega), if_neg (by omega), read_write_other m v (by omega)]

theorem read_place_inside (m : Memory) (a : Nat) (bs : List Byte) {k : Nat} (h : k < bs.length) :
    (m.place a bs).read (a + k) = bs[k] := by
  simp [read_place, List.getD, List.getElem?_eq_getElem h]

theorem read_place_outside (m : Memory) (a : Nat) (bs : List Byte) {b : Nat} (h : b < a ∨ a + bs.length ≤ b) :
    (m.place a bs).read b = m.read b := by
  rw [read_place]
  split
  · rw [List.getD_eq_default _ _ (by omega)]
  · rfl

/-! ## The canonical form -/

theorem pairwise_insert (m : Memory) (a : Nat) (v : Byte) (h : m.Pairwise (fun c d => c.1 < d.1))
    (ha : ∀ c ∈ m, c.1 ≠ a) : (m.insert a v).Pairwise (fun c d => c.1 < d.1) := by
  induction m with
  | nil => simp [insert]
  | cons c m ih =>
    have hc := List.pairwise_cons.mp h
    by_cases hl : a < c.1
    · simp only [insert, hl, if_true, List.pairwise_cons]
      refine ⟨?_, hc.1, hc.2⟩
      intro d hd
      rcases List.mem_cons.mp hd with e | e
      · simpa [e] using hl
      · exact Nat.lt_trans hl (hc.1 d e)
    · simp only [insert, hl, if_false, List.pairwise_cons]
      refine ⟨?_, ih hc.2 fun d hd => ha d (by simp [hd])⟩
      intro d hd
      have := ha c (by simp)
      rcases mem_insert hd with e | e
      · simp only [e]; omega
      · exact hc.1 d e

theorem wf_nil : Memory.wf [] := by simp [wf]

theorem wf_erase {m : Memory} (h : m.wf) (a : Nat) : (m.erase a).wf :=
  ⟨h.1.filter _, fun c hc => h.2 c (mem_erase hc).1⟩

theorem wf_write {m : Memory} (h : m.wf) {a : Nat} (ha : a < Config.memSize) (v : Byte) : (m.write a v).wf := by
  unfold write
  split
  · exact wf_erase h a
  · next hv =>
    refine ⟨pairwise_insert _ a v (wf_erase h a).1 fun c hc => (mem_erase hc).2, ?_⟩
    intro c hc
    rcases mem_insert hc with e | e
    · simp [e, ha, hv]
    · exact (wf_erase h a).2 c e

theorem wf_place {m : Memory} (h : m.wf) (a : Nat) (bs : List Byte) (hb : a + bs.length ≤ Config.memSize) :
    (m.place a bs).wf := by
  induction bs generalizing m a with
  | nil => exact h
  | cons v bs ih =>
    simp only [List.length_cons] at hb
    exact ih (wf_write h (by omega) v) (a + 1) (by omega)

/-- In the canonical form a listed cell is what its address reads as. -/
theorem read_of_mem {m : Memory} (h : m.Pairwise (fun c d => c.1 < d.1)) {c : Host.Cell} (hc : c ∈ m) :
    m.read c.1 = c.2 := by
  induction m with
  | nil => simp at hc
  | cons d m ih =>
    have hd := List.pairwise_cons.mp h
    rcases List.mem_cons.mp hc with e | e
    · subst e; simp [read]
    · have : d.1 ≠ c.1 := Nat.ne_of_lt (hd.1 c e)
      simp [read, this, ih hd.2 e]

/-- An address no cell lists reads as its reset contents. -/
theorem read_of_not_mem {m : Memory} {a : Nat} (h : ∀ c ∈ m, c.1 ≠ a) : m.read a = unlistedByte a := by
  induction m with
  | nil => rfl
  | cons c m ih => simp [read, h c (by simp), ih fun d hd => h d (by simp [hd])]

end Sys2Proof.Machine.Memory
end

