-- ==== Sys2Proof/Laws/State.lean ====
section
/-! SUPPORT. What each update of the state leaves in each field, so that no later proof unfolds a record update. -/

namespace Sys2Proof.Machine

variable (s : State) (x y : RegNum) (b : Byte) (f : Bool)

/-! ## `State.setReg` -/

@[simp] theorem setReg_pc : (s.setReg x b).pc = s.pc := rfl
@[simp] theorem setReg_i : (s.setReg x b).i = s.i := rfl
@[simp] theorem setReg_sp : (s.setReg x b).sp = s.sp := rfl
@[simp] theorem setReg_stk : (s.setReg x b).stk = s.stk := rfl
@[simp] theorem setReg_dt : (s.setReg x b).dt = s.dt := rfl
@[simp] theorem setReg_st : (s.setReg x b).st = s.st := rfl
@[simp] theorem setReg_key : (s.setReg x b).key = s.key := rfl
@[simp] theorem setReg_err : (s.setReg x b).err = s.err := rfl
@[simp] theorem setReg_warn : (s.setReg x b).warn = s.warn := rfl
@[simp] theorem setReg_q : (s.setReg x b).q = s.q := rfl
@[simp] theorem setReg_mem : (s.setReg x b).mem = s.mem := rfl
@[simp] theorem setReg_fb : (s.setReg x b).fb = s.fb := rfl
@[simp] theorem setReg_indexLimit : (s.setReg x b).indexLimit = s.indexLimit := rfl
@[simp] theorem setReg_draws : (s.setReg x b).draws = s.draws := rfl

@[simp] theorem reg_setReg_same : (s.setReg x b).reg x = b := by
  simp [State.reg, State.setReg]

theorem reg_setReg_other (h : y ≠ x) : (s.setReg x b).reg y = s.reg y := by
  have hn : x.toNat ≠ y.toNat := fun e => h (BitVec.eq_of_toNat_eq e.symm)
  simp [State.reg, State.setReg, hn]

theorem reg_setReg : (s.setReg x b).reg y = if y = x then b else s.reg y := by
  split
  · next h => subst h; simp
  · next h => exact reg_setReg_other s x y b h

/-- A register read does not see an update of another field. -/
theorem reg_congr {s t : State} (h : t.v = s.v) (x : RegNum) : t.reg x = s.reg x := by
  simp [State.reg, h]

/-! ## `State.setFlag` -/

@[simp] theorem setFlag_pc : (s.setFlag f).pc = s.pc := rfl
@[simp] theorem setFlag_i : (s.setFlag f).i = s.i := rfl
@[simp] theorem setFlag_sp : (s.setFlag f).sp = s.sp := rfl
@[simp] theorem setFlag_stk : (s.setFlag f).stk = s.stk := rfl
@[simp] theorem setFlag_dt : (s.setFlag f).dt = s.dt := rfl
@[simp] theorem setFlag_st : (s.setFlag f).st = s.st := rfl
@[simp] theorem setFlag_key : (s.setFlag f).key = s.key := rfl
@[simp] theorem setFlag_err : (s.setFlag f).err = s.err := rfl
@[simp] theorem setFlag_warn : (s.setFlag f).warn = s.warn := rfl
@[simp] theorem setFlag_q : (s.setFlag f).q = s.q := rfl
@[simp] theorem setFlag_mem : (s.setFlag f).mem = s.mem := rfl
@[simp] theorem setFlag_fb : (s.setFlag f).fb = s.fb := rfl
@[simp] theorem setFlag_indexLimit : (s.setFlag f).indexLimit = s.indexLimit := rfl
@[simp] theorem setFlag_draws : (s.setFlag f).draws = s.draws := rfl

@[simp] theorem reg_setFlag_vf : (s.setFlag f).reg vf = flagByte f := reg_setReg_same s vf (flagByte f)

theorem reg_setFlag : (s.setFlag f).reg y = if y = vf then flagByte f else s.reg y := reg_setReg s vf y (flagByte f)

/-! ## `State.setRegThenFlag` -/

@[simp] theorem setRegThenFlag_pc : (s.setRegThenFlag x b f).pc = s.pc := rfl
@[simp] theorem setRegThenFlag_i : (s.setRegThenFlag x b f).i = s.i := rfl
@[simp] theorem setRegThenFlag_sp : (s.setRegThenFlag x b f).sp = s.sp := rfl
@[simp] theorem setRegThenFlag_stk : (s.setRegThenFlag x b f).stk = s.stk := rfl
@[simp] theorem setRegThenFlag_dt : (s.setRegThenFlag x b f).dt = s.dt := rfl
@[simp] theorem setRegThenFlag_st : (s.setRegThenFlag x b f).st = s.st := rfl
@[simp] theorem setRegThenFlag_key : (s.setRegThenFlag x b f).key = s.key := rfl
@[simp] theorem setRegThenFlag_err : (s.setRegThenFlag x b f).err = s.err := rfl
@[simp] theorem setRegThenFlag_warn : (s.setRegThenFlag x b f).warn = s.warn := rfl
@[simp] theorem setRegThenFlag_q : (s.setRegThenFlag x b f).q = s.q := rfl
@[simp] theorem setRegThenFlag_mem : (s.setRegThenFlag x b f).mem = s.mem := rfl
@[simp] theorem setRegThenFlag_fb : (s.setRegThenFlag x b f).fb = s.fb := rfl
@[simp] theorem setRegThenFlag_indexLimit : (s.setRegThenFlag x b f).indexLimit = s.indexLimit := rfl
@[simp] theorem setRegThenFlag_draws : (s.setRegThenFlag x b f).draws = s.draws := rfl

theorem reg_setRegThenFlag : (s.setRegThenFlag x b f).reg y
    = if y = vf then flagByte f else if y = x then b else s.reg y := by
  simp only [State.setRegThenFlag, reg_setFlag, reg_setReg]

/-! ## `State.logicFlag` and `State.indexFlag` -/

@[simp] theorem logicFlag_pc : s.logicFlag.pc = s.pc := by unfold State.logicFlag; split <;> rfl
@[simp] theorem logicFlag_i : s.logicFlag.i = s.i := by unfold State.logicFlag; split <;> rfl
@[simp] theorem logicFlag_sp : s.logicFlag.sp = s.sp := by unfold State.logicFlag; split <;> rfl
@[simp] theorem logicFlag_stk : s.logicFlag.stk = s.stk := by unfold State.logicFlag; split <;> rfl
@[simp] theorem logicFlag_dt : s.logicFlag.dt = s.dt := by unfold State.logicFlag; split <;> rfl
@[simp] theorem logicFlag_st : s.logicFlag.st = s.st := by unfold State.logicFlag; split <;> rfl
@[simp] theorem logicFlag_key : s.logicFlag.key = s.key := by unfold State.logicFlag; split <;> rfl
@[simp] theorem logicFlag_err : s.logicFlag.err = s.err := by unfold State.logicFlag; split <;> rfl
@[simp] theorem logicFlag_warn : s.logicFlag.warn = s.warn := by unfold State.logicFlag; split <;> rfl
@[simp] theorem logicFlag_q : s.logicFlag.q = s.q := by unfold State.logicFlag; split <;> rfl
@[simp] theorem logicFlag_mem : s.logicFlag.mem = s.mem := by unfold State.logicFlag; split <;> rfl
@[simp] theorem logicFlag_fb : s.logicFlag.fb = s.fb := by unfold State.logicFlag; split <;> rfl
@[simp] theorem logicFlag_indexLimit : s.logicFlag.indexLimit = s.indexLimit := by unfold State.logicFlag; split <;> rfl
@[simp] theorem logicFlag_draws : s.logicFlag.draws = s.draws := by unfold State.logicFlag; split <;> rfl

@[simp] theorem indexFlag_pc : s.indexFlag.pc = s.pc := by unfold State.indexFlag; split <;> rfl
@[simp] theorem indexFlag_i : s.indexFlag.i = s.i := by unfold State.indexFlag; split <;> rfl
@[simp] theorem indexFlag_sp : s.indexFlag.sp = s.sp := by unfold State.indexFlag; split <;> rfl
@[simp] theorem indexFlag_stk : s.indexFlag.stk = s.stk := by unfold State.indexFlag; split <;> rfl
@[simp] theorem indexFlag_dt : s.indexFlag.dt = s.dt := by unfold State.indexFlag; split <;> rfl
@[simp] theorem indexFlag_st : s.indexFlag.st = s.st := by unfold State.indexFlag; split <;> rfl
@[simp] theorem indexFlag_key : s.indexFlag.key = s.key := by unfold State.indexFlag; split <;> rfl
@[simp] theorem indexFlag_err : s.indexFlag.err = s.err := by unfold State.indexFlag; split <;> rfl
@[simp] theorem indexFlag_warn : s.indexFlag.warn = s.warn := by unfold State.indexFlag; split <;> rfl
@[simp] theorem indexFlag_q : s.indexFlag.q = s.q := by unfold State.indexFlag; split <;> rfl
@[simp] theorem indexFlag_mem : s.indexFlag.mem = s.mem := by unfold State.indexFlag; split <;> rfl
@[simp] theorem indexFlag_fb : s.indexFlag.fb = s.fb := by unfold State.indexFlag; split <;> rfl
@[simp] theorem indexFlag_indexLimit : s.indexFlag.indexLimit = s.indexLimit := by unfold State.indexFlag; split <;> rfl
@[simp] theorem indexFlag_draws : s.indexFlag.draws = s.draws := by unfold State.indexFlag; split <;> rfl

theorem reg_logicFlag : s.logicFlag.reg y = if y = vf ∧ s.q.flagResetOnLogic = true then 0#8 else s.reg y := by
  unfold State.logicFlag
  by_cases h : s.q.flagResetOnLogic = true <;> simp [h, reg_setFlag, flagByte]

theorem reg_indexFlag : s.indexFlag.reg y
    = if y = vf ∧ s.q.indexOverflowFlag = true ∧ s.indexLimit < s.i.toNat then 1#8 else s.reg y := by
  unfold State.indexFlag
  by_cases h : s.q.indexOverflowFlag = true ∧ s.indexLimit < s.i.toNat <;> simp [h, reg_setFlag, flagByte]

/-! ## `State.warning` -/

variable (c : WarningCode) (w : Word)

@[simp] theorem warning_v : (s.warning c w).v = s.v := rfl
@[simp] theorem warning_pc : (s.warning c w).pc = s.pc := rfl
@[simp] theorem warning_i : (s.warning c w).i = s.i := rfl
@[simp] theorem warning_sp : (s.warning c w).sp = s.sp := rfl
@[simp] theorem warning_stk : (s.warning c w).stk = s.stk := rfl
@[simp] theorem warning_dt : (s.warning c w).dt = s.dt := rfl
@[simp] theorem warning_st : (s.warning c w).st = s.st := rfl
@[simp] theorem warning_key : (s.warning c w).key = s.key := rfl
@[simp] theorem warning_err : (s.warning c w).err = s.err := rfl
@[simp] theorem warning_q : (s.warning c w).q = s.q := rfl
@[simp] theorem warning_mem : (s.warning c w).mem = s.mem := rfl
@[simp] theorem warning_fb : (s.warning c w).fb = s.fb := rfl
@[simp] theorem warning_indexLimit : (s.warning c w).indexLimit = s.indexLimit := rfl
@[simp] theorem warning_draws : (s.warning c w).draws = s.draws := rfl
@[simp] theorem warning_warn : (s.warning c w).warn = some { code := c, info := w } := rfl

end Sys2Proof.Machine
end

