-- ==== Sys2Proof/Laws/Ops.lean ====
section
/-! SUPPORT. What each shared operation can do, said once: provers cite these and do not unfold the operations. -/

namespace Sys2Proof.Machine

/-! ## Taking a fatal, committing, attempting -/

theorem raiseFatal_of_running {s : State} (h : s.err = none) (f : Fatal) :
    raiseFatal s f = .next { s with err := some f } := by simp [raiseFatal, h]

theorem raiseFatal_next {s t : State} {f : Fatal} (h : raiseFatal s f = .next t) :
    t = { s with err := s.err.or (some f) } := by
  simpa [raiseFatal] using h.symm

theorem commit_of_legal (s s' : State) {p : Nat} (h : PcLegal p) :
    commit s s' p = .next { s' with pc := BitVec.ofNat 16 p } := if_pos h

theorem commit_of_illegal (s s' : State) {p : Nat} (h : ¬ PcLegal p) :
    commit s s' p = raiseFatal s { code := .pcRange, info := p } := if_neg h

/-- A legal `pc_next` is what `pc` holds after the commit: no wrap (40_step_and_dispatch.md R87). -/
theorem toNat_of_legal {p : Nat} (h : PcLegal p) : (BitVec.ofNat 16 p).toNat = p := by
  have : p ≤ 4094 := h.2
  simp only [BitVec.toNat_ofNat]
  omega

/-- Everything a commit can do. -/
theorem commit_next {s s' t : State} {p : Nat} (h : commit s s' p = .next t) :
    (PcLegal p ∧ t = { s' with pc := BitVec.ofNat 16 p })
      ∨ (¬ PcLegal p ∧ t = { s with err := s.err.or (some { code := .pcRange, info := p }) }) := by
  unfold commit at h
  split at h
  · next hp => exact .inl ⟨hp, by simpa using h.symm⟩
  · next hp => exact .inr ⟨hp, raiseFatal_next h⟩

theorem commit_ne_refused (s s' : State) (p : Nat) (r : Refusal) : commit s s' p ≠ .refused r := by
  unfold commit raiseFatal
  split <;> simp

@[simp] theorem attempt_ok {α : Type} (s : State) (a : α) (k : α → Result) : attempt s (.ok a) k = k a := rfl

@[simp] theorem attempt_fatal {α : Type} (s : State) (f : Fatal) (k : α → Result) :
    attempt s (.error (.fatal f)) k = raiseFatal s f := rfl

@[simp] theorem attempt_refuse {α : Type} (s : State) (r : Refusal) (k : α → Result) :
    attempt s (.error (.refuse r)) k = .refused r := rfl

/-- Everything an attempt that answers a next state can have done. -/
theorem attempt_next {α : Type} {s t : State} {r : Except Stop α} {k : α → Result} (h : attempt s r k = .next t) :
    (∃ a, r = .ok a ∧ k a = .next t)
      ∨ ∃ f, r = .error (.fatal f) ∧ t = { s with err := s.err.or (some f) } := by
  match r, h with
  | .ok a, h => exact .inl ⟨a, rfl, h⟩
  | .error (.fatal f), h => exact .inr ⟨f, rfl, raiseFatal_next h⟩
  | .error (.refuse _), h => simp at h

/-! ## The stack -/

theorem push_of_room {s : State} (h : s.sp < s.stk.length) (a : Word) :
    push s a = .ok { s with stk := s.stk.set s.sp a, sp := s.sp + 1 } := if_pos h

theorem push_of_full {s : State} (h : s.sp = s.stk.length) (a : Word) :
    push s a = .error (.fatal { code := .stackOverflow, info := s.pc.toNat }) := by
  simp [push, h]

theorem push_of_beyond {s : State} (h : s.stk.length < s.sp) (a : Word) :
    push s a = .error (.refuse .stackPointerBeyondCapacity) := by
  unfold push
  rw [if_neg (by omega), if_neg (by omega)]

theorem pop_of_empty {s : State} (h : s.sp = 0) :
    pop s = .error (.fatal { code := .stackUnderflow, info := s.pc.toNat }) := if_pos h

theorem pop_of_entry {s : State} (h : 0 < s.sp) (h' : s.sp ≤ s.stk.length) :
    pop s = .ok (s.stk.getD (s.sp - 1) 0, { s with sp := s.sp - 1 }) := by
  unfold pop
  rw [if_neg (by omega), if_pos h']

theorem pop_of_beyond {s : State} (h : s.stk.length < s.sp) :
    pop s = .error (.refuse .stackPointerBeyondCapacity) := by
  unfold pop
  rw [if_neg (by omega), if_neg (by omega)]

/-! ## Memory access -/

theorem memRead_of_lt (m : Memory) {a : Nat} (h : a < 4096) : memRead m a = .ok (m.read a) := if_pos h

theorem memRead_of_ge (m : Memory) {a : Nat} (h : 4096 ≤ a) :
    memRead m a = .error (.fatal { code := .memRange, info := a }) := if_neg (Nat.not_lt.mpr h)

/-- Consecutive stores inside MEM. -/
theorem memWriteBytes_ok (m : Memory) (a : Nat) (bs : List Byte) (h : bs = [] ∨ a + bs.length ≤ 4096) :
    memWriteBytes m a bs = .ok (m.place a bs) := by
  induction bs generalizing m a with
  | nil => rfl
  | cons b bs ih =>
    simp only [List.length_cons, reduceCtorEq, false_or] at h
    have ha : a < 4096 := by omega
    simp only [memWriteBytes, memWrite, ha, if_true, Memory.place]
    exact ih _ _ (.inr (by omega))

/-- Consecutive stores past the end of MEM: the fatal names the lowest address that does not exist. -/
theorem memWriteBytes_range (m : Memory) (a : Nat) (bs : List Byte) (hb : bs ≠ []) (h : 4096 < a + bs.length) :
    memWriteBytes m a bs = .error (.fatal { code := .memRange, info := max a 4096 }) := by
  induction bs generalizing m a with
  | nil => exact absurd rfl hb
  | cons b bs ih =>
    simp only [List.length_cons] at h
    by_cases ha : a < 4096
    · simp only [memWriteBytes, memWrite, ha, if_true]
      have hne : bs ≠ [] := by rintro rfl; simp at h; omega
      rw [ih _ _ hne (by omega), show max (a + 1) 4096 = max a 4096 by omega]
    · simp only [memWriteBytes, memWrite, ha, if_false]
      rw [show max a 4096 = a by omega]

/-- Consecutive loads inside MEM. -/
theorem memReadBytes_ok (m : Memory) (a k : Nat) (h : k = 0 ∨ a + k ≤ 4096) :
    memReadBytes m a k = .ok ((List.range k).map fun j => m.read (a + j)) := by
  induction k generalizing a with
  | zero => rfl
  | succ k ih =>
    have ha : a < 4096 := by omega
    simp only [memReadBytes, memRead_of_lt m ha, ih (a + 1) (.inr (by omega)), List.range_succ_eq_map]
    simp [Nat.add_assoc, Nat.add_comm 1]

/-- Consecutive loads past the end of MEM. -/
theorem memReadBytes_range (m : Memory) (a k : Nat) (hk : 0 < k) (h : 4096 < a + k) :
    memReadBytes m a k = .error (.fatal { code := .memRange, info := max a 4096 }) := by
  induction k generalizing a with
  | zero => omega
  | succ k ih =>
    by_cases ha : a < 4096
    · simp only [memReadBytes, memRead_of_lt m ha, ih (a + 1) (by omega) (by omega)]
      rw [show max (a + 1) 4096 = max a 4096 by omega]
    · simp only [memReadBytes, memRead_of_ge m (Nat.not_lt.mp ha)]
      rw [show max a 4096 = a by omega]

/-! ## Blocks of registers -/

theorem getElem_setRegsFrom (v : Vector Byte 16) (k : Nat) (bs : List Byte) (j : Nat) (hj : j < 16) :
    (setRegsFrom v k bs)[j] = if k ≤ j then bs.getD (j - k) v[j] else v[j] := by
  induction bs generalizing v k with
  | nil => simp [setRegsFrom]
  | cons b bs ih =>
    rw [setRegsFrom, ih, Vector.getElem_setIfInBounds hj]
    rcases Nat.lt_trichotomy k j with h | h | h
    · have e : j - k = (j - (k + 1)) + 1 := by omega
      have h1 : k + 1 ≤ j := h
      have h2 : k ≠ j := Nat.ne_of_lt h
      simp only [h1, h2, Nat.le_of_lt h, if_true, if_false, e, List.getD_cons_succ]
    · subst h; simp
    · have h1 : ¬ k + 1 ≤ j := by omega
      have h2 : k ≠ j := by omega
      have h3 : ¬ k ≤ j := by omega
      simp only [h1, h2, h3, if_false]

@[simp] theorem length_regsUpTo (s : State) (x : RegNum) : (regsUpTo s x).length = x.toNat + 1 := by
  have := x.isLt
  simp only [regsUpTo, List.length_take, Vector.length_toList]
  omega

theorem getElem_regsUpTo (s : State) (x r : RegNum) (h : r.toNat < (regsUpTo s x).length) :
    (regsUpTo s x)[r.toNat] = s.reg r := by
  simp [regsUpTo, State.reg]

/-! ## The framebuffer -/

theorem getLsbD_setPixelInRow (row : PixelRow) (c : Nat) (b : Bool) (c' : Nat) (hc : c < 64) :
    (setPixelInRow row c b).getLsbD c' = if c' = c then b else row.getLsbD c' := by
  unfold setPixelInRow
  by_cases h : c' = c
  · subst h; cases b <;> simp [hc]
  · have h' : c ≠ c' := Ne.symm h
    cases b
    · by_cases hl : c' < 64
      · simp [h, hl]
      · simp [BitVec.getLsbD_of_ge _ _ (Nat.not_lt.mp hl), h]
    · simp [h, h']

/-- A cell after a cell of the grid is written. -/
theorem pixel_setPixel (fb : Framebuffer) (r c : Nat) (b : Bool) (r' c' : Nat) (hr : r < 32) (hc : c < 64) :
    pixel (setPixel fb r c b) r' c' = if r' = r ∧ c' = c then b else pixel fb r' c' := by
  unfold pixel setPixel
  simp only [hr, dif_pos]
  by_cases hr' : r' < 32
  · simp only [hr', dif_pos, Vector.getElem_set]
    by_cases h : r = r'
    · subst h; simp [getLsbD_setPixelInRow _ _ _ _ hc]
    · simp [h, Ne.symm h]
  · have : r' ≠ r := by omega
    simp [hr', this]

/-- There is no cell outside the grid. -/
theorem pixel_outside (fb : Framebuffer) {r c : Nat} (h : 32 ≤ r ∨ 64 ≤ c) : pixel fb r c = false := by
  unfold pixel
  split
  · exact BitVec.getLsbD_of_ge _ _ (by omega)
  · rfl

@[simp] theorem pixel_blank (r c : Nat) : pixel (Vector.replicate 32 0#64) r c = false := by
  unfold pixel
  split <;> simp

/-- Pictures with the same cells are the same picture. -/
theorem framebuffer_ext {fb fb' : Framebuffer} (h : ∀ r c, pixel fb r c = pixel fb' r c) : fb = fb' := by
  apply Vector.ext
  intro r hr
  apply BitVec.eq_of_getLsbD_eq
  intro c _
  simpa [pixel, hr] using h r c

end Sys2Proof.Machine
end

