-- ==== Sys2Proof/Laws/Display.lean ====
section
/-! SUPPORT. The sprite engine's loops in closed form (spec/44_display.md R152): which cells a row and a run of rows
toggle, when they abort, and when they read past the end of MEM. -/

namespace Sys2Proof.Machine

/-- A toggle: the one cell flips, and the flag records that it was lit. -/
theorem pixel_toggle (cv : Canvas) (r c : Nat) (hr : r < 32) (hc : c < 64) (r' c' : Nat) :
    pixel (cv.toggle r c).fb r' c' = (pixel cv.fb r' c' ^^ decide (r' = r ∧ c' = c)) := by
  simp only [Canvas.toggle, pixel_setPixel _ _ _ _ _ _ hr hc]
  by_cases h : r' = r ∧ c' = c
  · simp [h]
  · simp [h]

/-- The columns a call of `drawCols` toggles on its row. -/
abbrev RowBit (b : Byte) (px col k c : Nat) : Prop :=
  px + col ≤ c ∧ c < px + col + k ∧ c < 64 ∧ b.getLsbD (7 - (c - px)) = true

/-- The picture after the columns of one row. -/
theorem pixel_drawCols (b : Byte) (r px : Nat) (hr : r < 32) (k col : Nat) (cv : Canvas) (r' c' : Nat) :
    pixel (drawCols b r px k col cv).1.fb r' c'
      = (pixel cv.fb r' c' ^^ decide (r' = r ∧ RowBit b px col k c')) := by
  induction k generalizing col cv with
  | zero =>
    have : ¬ (r' = r ∧ RowBit b px col 0 c') := by rintro ⟨_, _, _, _⟩; omega
    simp [drawCols, this]
  | succ k ih =>
    unfold drawCols
    split
    · next h =>
      have h' : 64 ≤ px + col := h
      have : ¬ (r' = r ∧ RowBit b px col (k + 1) c') := by rintro ⟨_, _, _, _⟩; omega
      simp [this]
    · next h =>
      have h' : px + col < 64 := Nat.not_le.mp h
      rw [ih]
      by_cases hc : c' = px + col
      · subst hc
        have e1 : ¬ RowBit b px (col + 1) k (px + col) := by rintro ⟨_, _⟩; omega
        have e2 : RowBit b px col (k + 1) (px + col) ↔ b.getLsbD (7 - col) = true := by
          simp only [RowBit, Nat.add_sub_cancel_left]
          constructor
          · exact fun hh => hh.2.2.2
          · exact fun hh => ⟨by omega, by omega, h', hh⟩
        by_cases hb : b.getLsbD (7 - col) = true
        · by_cases hrr : r' = r <;> simp [e1, e2, hb, pixel_toggle cv r _ hr h', hrr]
        · simp [e1, e2, hb]
      · have e : RowBit b px col (k + 1) c' ↔ RowBit b px (col + 1) k c' := by
          constructor <;> rintro ⟨h1, h2, h3, h4⟩ <;> exact ⟨by omega, by omega, h3, h4⟩
        by_cases hb : b.getLsbD (7 - col) = true
        · simp [e, hb, pixel_toggle cv r _ hr h', hc]
        · simp [e, hb]

/-- The flag after the columns of one row: a toggled cell was lit. -/
theorem hit_drawCols (b : Byte) (r px : Nat) (hr : r < 32) (k col : Nat) (cv : Canvas) :
    (drawCols b r px k col cv).1.hit = true
      ↔ cv.hit = true ∨ ∃ c, RowBit b px col k c ∧ pixel cv.fb r c = true := by
  induction k generalizing col cv with
  | zero =>
    have : ∀ c, ¬ RowBit b px col 0 c := by rintro c ⟨_, _, _⟩; omega
    simp [drawCols, this]
  | succ k ih =>
    unfold drawCols
    split
    · next h =>
      have h' : 64 ≤ px + col := h
      have : ∀ c, ¬ RowBit b px col (k + 1) c := by rintro c ⟨_, _, _⟩; omega
      simp [this]
    · next h =>
      have h' : px + col < 64 := Nat.not_le.mp h
      rw [ih]
      have split : ∀ c, RowBit b px col (k + 1) c
          ↔ (c = px + col ∧ b.getLsbD (7 - col) = true) ∨ RowBit b px (col + 1) k c := by
        intro c
        constructor
        · rintro ⟨h1, h2, h3, h4⟩
          by_cases hc : c = px + col
          · subst hc; exact .inl ⟨rfl, by simpa using h4⟩
          · exact .inr ⟨by omega, by omega, h3, h4⟩
        · rintro (⟨rfl, h4⟩ | ⟨h1, h2, h3, h4⟩)
          · exact ⟨by omega, by omega, h', by simpa using h4⟩
          · exact ⟨by omega, by omega, h3, h4⟩
      have away : ∀ c, RowBit b px (col + 1) k c → c ≠ px + col := by rintro c ⟨_, _⟩; omega
      by_cases hb : b.getLsbD (7 - col) = true
      · simp only [hb, if_true, split, and_true]
        constructor
        · rintro (hh | ⟨c, hc, hp⟩)
          · rcases Bool.or_eq_true _ _ |>.mp hh with e | e
            · exact .inl e
            · exact .inr ⟨_, .inl rfl, e⟩
          · rw [pixel_toggle cv r _ hr h'] at hp
            exact .inr ⟨c, .inr hc, by simpa [away c hc] using hp⟩
        · rintro (hh | ⟨c, rfl | hc, hp⟩)
          · exact .inl (by simp [Canvas.toggle, hh])
          · exact .inl (by simp [Canvas.toggle, hp])
          · exact .inr ⟨c, hc, by simp [pixel_toggle cv r _ hr h', away c hc, hp]⟩
      · simp [hb, split]

/-- The row aborts the draw exactly when its columns run past the last one. -/
theorem abort_drawCols (b : Byte) (r px : Nat) (k col : Nat) (cv : Canvas) (h : px + col ≤ 64) :
    (drawCols b r px k col cv).2 = decide (64 < px + col + k) := by
  induction k generalizing col cv with
  | zero => simp [drawCols, h]
  | succ k ih =>
    unfold drawCols
    split
    · next h' =>
      have : 64 ≤ px + col := h'
      simp; omega
    · next h' =>
      have : px + col < 64 := Nat.not_le.mp h'
      rw [ih _ _ (by omega)]
      simp only [decide_eq_decide]
      omega

/-- The rows a call of `drawRows` processes, counted from `row`. -/
def rowsFrom (px py k row : Nat) : Nat :=
  if k = 0 ∨ 31 < py + row then 0 else if 56 < px then 1 else min k (32 - (py + row))

/-- The cells a call of `drawRows` toggles. -/
abbrev SpriteBit (m : Memory) (addr px py k row r c : Nat) : Prop :=
  py + row ≤ r ∧ r < py + row + rowsFrom px py k row
    ∧ RowBit (m.read (addr + (r - py))) px 0 8 c

/-- A row of the screen that is drawn: the first row of the run, then the rest of the run. -/
theorem rowsFrom_succ (px py k row : Nat) (h : py + row ≤ 31) (hp : ¬ 56 < px) :
    rowsFrom px py (k + 1) row = rowsFrom px py k (row + 1) + 1 := by
  unfold rowsFrom
  rw [if_neg (by omega), if_neg hp]
  split
  · omega
  · omega

theorem rowsFrom_stop (px py k row : Nat) (h : 31 < py + row) : rowsFrom px py k row = 0 := by
  simp [rowsFrom, h]

theorem rowsFrom_clipped (px py k row : Nat) (h : py + row ≤ 31) (hp : 56 < px) :
    rowsFrom px py (k + 1) row = 1 := by
  unfold rowsFrom
  rw [if_neg (by omega), if_pos hp]

/-- One row of the screen that lies in MEM. -/
theorem drawRows_step (m : Memory) (addr px py k row : Nat) (cv : Canvas) (hr : py + row < 32) (hm : addr + row < 4096) :
    drawRows m addr px py (k + 1) row cv
      = if (drawCols (m.read (addr + row)) (py + row) px 8 0 cv).2 = true
        then .ok (drawCols (m.read (addr + row)) (py + row) px 8 0 cv).1
        else drawRows m addr px py k (row + 1) (drawCols (m.read (addr + row)) (py + row) px 8 0 cv).1 := by
  conv_lhs => unfold drawRows
  rw [if_neg (by show ¬ 32 ≤ py + row; omega), memRead_of_lt m hm]
  rcases h : drawCols (m.read (addr + row)) (py + row) px 8 0 cv with ⟨cv1, ab⟩
  cases ab <;> simp [h]

/-- A draw all of whose processed rows lie in MEM. -/
theorem drawRows_ok (m : Memory) (addr px py : Nat) (hpx : px < 64) (k row : Nat) (cv : Canvas)
    (h : rowsFrom px py k row = 0 ∨ addr + row + rowsFrom px py k row ≤ 4096) :
    ∃ cv', drawRows m addr px py k row cv = .ok cv'
      ∧ (∀ r c, pixel cv'.fb r c = (pixel cv.fb r c ^^ decide (SpriteBit m addr px py k row r c)))
      ∧ (cv'.hit = true ↔ cv.hit = true
          ∨ ∃ r c, SpriteBit m addr px py k row r c ∧ pixel cv.fb r c = true) := by
  induction k generalizing row cv with
  | zero =>
    have e : ∀ r c, ¬ SpriteBit m addr px py 0 row r c := by
      rintro r c ⟨_, h2, _⟩; simp [rowsFrom] at h2; omega
    exact ⟨cv, rfl, by simp [e], by simp [e]⟩
  | succ k ih =>
    by_cases hr : 31 < py + row
    · have e : ∀ r c, ¬ SpriteBit m addr px py (k + 1) row r c := by
        rintro r c ⟨_, h2, _⟩; rw [rowsFrom_stop _ _ _ _ hr] at h2; omega
      refine ⟨cv, ?_, by simp [e], by simp [e]⟩
      unfold drawRows
      rw [if_pos (by show 32 ≤ py + row; omega)]
    · have hr' : py + row < 32 := by omega
      have hmem : addr + row < 4096 := by
        by_cases hp : 56 < px
        · rw [rowsFrom_clipped _ _ _ _ (by omega) hp] at h; omega
        · rw [rowsFrom_succ _ _ _ _ (by omega) hp] at h; omega
      have hb := pixel_drawCols (m.read (addr + row)) (py + row) px hr' 8 0 cv
      have hh := hit_drawCols (m.read (addr + row)) (py + row) px hr' 8 0 cv
      have ha := abort_drawCols (m.read (addr + row)) (py + row) px 8 0 cv (by omega)
      have hrow : addr + (py + row - py) = addr + row := by omega
      rw [drawRows_step m addr px py k row cv hr' hmem]
      generalize drawCols (m.read (addr + row)) (py + row) px 8 0 cv = d at hb hh ha
      obtain ⟨cv1, ab⟩ := d
      dsimp only at hb hh ha
      by_cases hp : 56 < px
      · have hab : ab = true := by rw [ha]; exact decide_eq_true (by omega)
        subst hab
        have e : ∀ r c, SpriteBit m addr px py (k + 1) row r c
            ↔ r = py + row ∧ RowBit (m.read (addr + row)) px 0 8 c := by
          intro r c
          simp only [SpriteBit, rowsFrom_clipped _ _ _ _ (by omega : py + row ≤ 31) hp]
          constructor
          · rintro ⟨h1, h2, h3⟩
            have : r = py + row := by omega
            subst this
            exact ⟨rfl, by rwa [hrow] at h3⟩
          · rintro ⟨rfl, h3⟩
            exact ⟨Nat.le_refl _, by omega, by rwa [hrow]⟩
        refine ⟨cv1, by simp, ?_, ?_⟩
        · intro r c; rw [hb]; simp only [e]
        · rw [hh]
          simp only [e]
          constructor
          · rintro (x | ⟨c, x, y⟩)
            · exact .inl x
            · exact .inr ⟨_, c, ⟨rfl, x⟩, y⟩
          · rintro (x | ⟨r, c, ⟨rfl, x⟩, y⟩)
            · exact .inl x
            · exact .inr ⟨c, x, y⟩
      · have hab : ab = false := by rw [ha]; exact decide_eq_false (by omega)
        subst hab
        have hs := rowsFrom_succ px py k row (by omega) hp
        obtain ⟨cv', hd, hpx', hhit⟩ := ih (row + 1) cv1 (by omega)
        have e : ∀ r c, SpriteBit m addr px py (k + 1) row r c
            ↔ (r = py + row ∧ RowBit (m.read (addr + row)) px 0 8 c) ∨ SpriteBit m addr px py k (row + 1) r c := by
          intro r c
          simp only [SpriteBit, hs]
          constructor
          · rintro ⟨h1, h2, h3⟩
            by_cases hc : r = py + row
            · subst hc; exact .inl ⟨rfl, by rwa [hrow] at h3⟩
            · exact .inr ⟨by omega, by omega, h3⟩
          · rintro (⟨rfl, h3⟩ | ⟨h1, h2, h3⟩)
            · exact ⟨Nat.le_refl _, by omega, by rwa [hrow]⟩
            · exact ⟨by omega, by omega, h3⟩
        have away : ∀ r c, SpriteBit m addr px py k (row + 1) r c → r ≠ py + row := by
          rintro r c ⟨h1, _⟩; omega
        refine ⟨cv', by simpa using hd, ?_, ?_⟩
        · intro r c
          rw [hpx', hb]
          simp only [e]
          by_cases h1 : r = py + row ∧ RowBit (m.read (addr + row)) px 0 8 c
          · have h2 : ¬ SpriteBit m addr px py k (row + 1) r c := fun x => away r c x h1.1
            rw [decide_eq_true h1, decide_eq_false h2, decide_eq_true (Or.inl h1)]
            simp
          · by_cases h2 : SpriteBit m addr px py k (row + 1) r c
            · rw [decide_eq_false h1, decide_eq_true h2, decide_eq_true (Or.inr h2)]
              simp
            · rw [decide_eq_false h1, decide_eq_false h2, decide_eq_false (by simp only [h1, h2, or_self, not_false_eq_true])]
              simp
        · rw [hhit, hh]
          simp only [e]
          constructor
          · rintro ((x | ⟨c, x, y⟩) | ⟨r, c, x, y⟩)
            · exact .inl x
            · exact .inr ⟨_, c, .inl ⟨rfl, x⟩, y⟩
            · refine .inr ⟨r, c, .inr x, ?_⟩
              rw [hb] at y
              simpa [away r c x] using y
          · rintro (x | ⟨r, c, ⟨rfl, x⟩ | x, y⟩)
            · exact .inl (.inl x)
            · exact .inl (.inr ⟨c, x, y⟩)
            · refine .inr ⟨r, c, x, ?_⟩
              rw [hb]
              simpa [away r c x] using y

/-- A draw with a processed row past the end of MEM: the fatal names the lowest address that does not exist. -/
theorem drawRows_range (m : Memory) (addr px py : Nat) (hpx : px < 64) (k row : Nat) (cv : Canvas)
    (h0 : 0 < rowsFrom px py k row) (h : 4096 < addr + row + rowsFrom px py k row) :
    drawRows m addr px py k row cv = .error (.fatal { code := .memRange, info := max (addr + row) 4096 }) := by
  induction k generalizing row cv with
  | zero => simp [rowsFrom] at h0
  | succ k ih =>
    have hr : py + row ≤ 31 := by
      by_contra hc
      rw [rowsFrom_stop _ _ _ _ (by omega)] at h0
      omega
    by_cases hm : addr + row < 4096
    · rw [drawRows_step m addr px py k row cv (by omega) hm]
      have hp : ¬ 56 < px := by
        intro hp
        rw [rowsFrom_clipped _ _ _ _ hr hp] at h
        omega
      have hs := rowsFrom_succ px py k row hr hp
      have ha := abort_drawCols (m.read (addr + row)) (py + row) px 8 0 cv (by omega)
      generalize drawCols (m.read (addr + row)) (py + row) px 8 0 cv = d at ha
      obtain ⟨cv1, ab⟩ := d
      have hab : ab = false := by
        dsimp only at ha
        rw [ha]; exact decide_eq_false (by omega)
      subst hab
      have := ih (row + 1) cv1 (by omega) (by omega)
      simp only [Bool.false_eq_true, if_false]
      rw [this, show max (addr + (row + 1)) 4096 = max (addr + row) 4096 by omega]
    · unfold drawRows
      rw [if_neg (by show ¬ 32 ≤ py + row; omega), memRead_of_ge m (by omega), show max (addr + row) 4096 = addr + row by omega]

end Sys2Proof.Machine
end

