-- ==== Sys2Proof/Laws/Exec.lean ====
section
/-! SUPPORT. The instructions that can fail before their commit, in closed form, and the inversion of `exec`: everything
an instruction that answers a next state can have done. -/

namespace Sys2Proof.Machine

/-! ## Closed forms of the instructions with a fault of their own -/

/-- RET with a live entry (41_control_transfer.md R100). -/
theorem execRet_of_entry {s : State} (h : 0 < s.sp) (h' : s.sp ≤ s.stk.length) :
    execRet s = commit s { s with sp := s.sp - 1 } ((s.stk.getD (s.sp - 1) 0).toNat + 2) := by
  rw [execRet, pop_of_entry h h', attempt_ok]

/-- RET on the empty stack (60_exceptions.md R173). -/
theorem execRet_of_empty {s : State} (h : s.sp = 0) :
    execRet s = raiseFatal s { code := .stackUnderflow, info := s.pc.toNat } := by
  rw [execRet, pop_of_empty h, attempt_fatal]

/-- CALL with room (41_control_transfer.md R102). -/
theorem execCall_of_room {nnn : Addr12} {s : State} (h : s.sp < s.stk.length) :
    execCall nnn s = commit s { s with stk := s.stk.set s.sp s.pc, sp := s.sp + 1 } nnn.toNat := by
  rw [execCall, push_of_room h, attempt_ok]

/-- CALL on a full stack (60_exceptions.md R174). -/
theorem execCall_of_full {nnn : Addr12} {s : State} (h : s.sp = s.stk.length) :
    execCall nnn s = raiseFatal s { code := .stackOverflow, info := s.pc.toNat } := by
  rw [execCall, push_of_full h, attempt_fatal]

/-- LD Vx, K with a key (45_keypad_and_timers.md R162). -/
theorem execLdKey_of_key {x : RegNum} {s : State} {k : Key} (h : s.key = some k) :
    execLdKey x s = commit s { s.setReg x (k.setWidth 8) with key := none } (nextPc s) := by
  simp [execLdKey, h]

/-- LD Vx, K with no key: the same instruction again. -/
theorem execLdKey_of_none {x : RegNum} {s : State} (h : s.key = none) :
    execLdKey x s = commit s s s.pc.toNat := by
  simp [execLdKey, h]

/-- LD B inside MEM (43_index_and_memory.md R143). -/
theorem execLdBcd_inside {x : RegNum} {s : State} (h : s.i.toNat + 2 ≤ 4095) :
    execLdBcd x s = commit s { s with mem := s.mem.place (dataAddr s) (bcdDigits (s.reg x)) } (nextPc s) := by
  have hi : dataAddr s + (bcdDigits (s.reg x)).length ≤ 4096 := by simp [bcdDigits, dataAddr]; omega
  simp [execLdBcd, memWriteBytes_ok _ _ _ (.inr hi)]

/-- LD B past the end of MEM. -/
theorem execLdBcd_outside {x : RegNum} {s : State} (h : 4095 < s.i.toNat + 2) :
    execLdBcd x s = raiseFatal s { code := .memRange, info := max s.i.toNat 4096 } := by
  have hi : 4096 < dataAddr s + (bcdDigits (s.reg x)).length := by simp [bcdDigits, dataAddr]; omega
  rw [execLdBcd, memWriteBytes_range _ _ _ (by simp [bcdDigits]) hi]
  rfl

/-- LD [I] inside MEM (43_index_and_memory.md R144). -/
theorem execStoreRegs_inside {x : RegNum} {s : State} (h : s.i.toNat + x.toNat ≤ 4095) :
    execStoreRegs x s
      = commit s { s with mem := s.mem.place (dataAddr s) (regsUpTo s x), i := indexAfterBlock s x } (nextPc s) := by
  have hi : dataAddr s + (regsUpTo s x).length ≤ 4096 := by simp [dataAddr]; omega
  simp [execStoreRegs, memWriteBytes_ok _ _ _ (.inr hi)]

/-- LD [I] past the end of MEM. -/
theorem execStoreRegs_outside {x : RegNum} {s : State} (h : 4095 < s.i.toNat + x.toNat) :
    execStoreRegs x s = raiseFatal s { code := .memRange, info := max s.i.toNat 4096 } := by
  have hi : 4096 < dataAddr s + (regsUpTo s x).length := by simp [dataAddr]; omega
  have hn : regsUpTo s x ≠ [] := List.ne_nil_of_length_pos (by simp)
  rw [execStoreRegs, memWriteBytes_range _ _ _ hn hi]
  rfl

/-- LD Vx, [I] inside MEM (43_index_and_memory.md R145). -/
theorem execLoadRegs_inside {x : RegNum} {s : State} (h : s.i.toNat + x.toNat ≤ 4095) :
    execLoadRegs x s
      = commit s { s with
          v := setRegsFrom s.v 0 ((List.range (x.toNat + 1)).map fun j => s.mem.read (dataAddr s + j))
          i := indexAfterBlock s x } (nextPc s) := by
  have hi : dataAddr s + (x.toNat + 1) ≤ 4096 := by simp [dataAddr]; omega
  simp [execLoadRegs, memReadBytes_ok _ _ _ (.inr hi)]

/-- LD Vx, [I] past the end of MEM. -/
theorem execLoadRegs_outside {x : RegNum} {s : State} (h : 4095 < s.i.toNat + x.toNat) :
    execLoadRegs x s = raiseFatal s { code := .memRange, info := max s.i.toNat 4096 } := by
  have hi : 4096 < dataAddr s + (x.toNat + 1) := by simp [dataAddr]; omega
  rw [execLoadRegs, memReadBytes_range _ _ _ (Nat.succ_pos _) hi]
  rfl

/-- The sprite rows that DRW processes (44_display.md R153). -/
abbrev spriteRows (x y : RegNum) (n : Nibble) (s : State) : Nat :=
  rowsFrom (originCol (s.reg x)) (originRow (s.reg y)) n.toNat 0

theorem originCol_lt (b : Byte) : originCol b < 64 := Nat.mod_lt _ (by decide)
theorem originRow_lt (b : Byte) : originRow b < 32 := Nat.mod_lt _ (by decide)

/-- DRW all of whose processed rows lie in MEM (44_display.md R152): the picture and the flag it commits. -/
theorem execDrw_inside {x y : RegNum} {n : Nibble} {s : State}
    (h : spriteRows x y n s = 0 ∨ s.i.toNat + spriteRows x y n s ≤ 4096) :
    ∃ fb hit, execDrw x y n s = commit s (State.setFlag { s with fb := fb } hit) (nextPc s)
      ∧ (∀ r c, pixel fb r c = if r = originRow (s.reg y) ∧ c = originCol (s.reg x) then true else
          (pixel s.fb r c
            ^^ decide (SpriteBit s.mem s.i.toNat (originCol (s.reg x)) (originRow (s.reg y)) n.toNat 0 r c)))
      ∧ (hit = true ↔ ∃ r c, SpriteBit s.mem s.i.toNat (originCol (s.reg x)) (originRow (s.reg y)) n.toNat 0 r c
          ∧ pixel s.fb r c = true) := by
  obtain ⟨cv, hd, hp, hh⟩ := drawRows_ok s.mem s.i.toNat _ (originRow (s.reg y)) (originCol_lt (s.reg x)) n.toNat 0
    { fb := s.fb, hit := false } h
  refine ⟨setPixel cv.fb (originRow (s.reg y)) (originCol (s.reg x)) true, cv.hit, ?_, ?_, ?_⟩
  · simp [execDrw, drawSprite, dataAddr, hd]
  · intro r c
    rw [pixel_setPixel _ _ _ _ _ _ (originRow_lt _) (originCol_lt _), hp]
  · simpa using hh

/-- DRW with a processed row past the end of MEM. -/
theorem execDrw_outside {x y : RegNum} {n : Nibble} {s : State} (h0 : 0 < spriteRows x y n s)
    (h : 4096 < s.i.toNat + spriteRows x y n s) :
    execDrw x y n s = raiseFatal s { code := .memRange, info := max s.i.toNat 4096 } := by
  have := drawRows_range s.mem s.i.toNat _ (originRow (s.reg y)) (originCol_lt (s.reg x)) n.toNat 0
    { fb := s.fb, hit := false } h0 (by simpa using h)
  simp [execDrw, drawSprite, dataAddr, this]

/-! ## Everything an instruction can have done -/

/-- The state `s'` an instruction commits keeps what no instruction writes, and keeps the invariants of 10_state.md R29. -/
structure Kept (s s' : State) : Prop where
  err : s'.err = s.err
  q : s'.q = s.q
  indexLimit : s'.indexLimit = s.indexLimit
  capacity : s'.stk.length = s.stk.length
  sp_le : s.sp ≤ s.stk.length → s'.sp ≤ s'.stk.length
  mem_wf : s.mem.wf → s'.mem.wf

/-- An instruction whose effects touch neither stack nor memory keeps all of it. -/
theorem Kept.of_fields {s s' : State} (h1 : s'.err = s.err) (h2 : s'.q = s.q) (h3 : s'.indexLimit = s.indexLimit)
    (h4 : s'.stk = s.stk) (h5 : s'.sp = s.sp) (h6 : s'.mem = s.mem) : Kept s s' :=
  ⟨h1, h2, h3, by rw [h4], by rw [h4, h5]; exact id, by rw [h6]; exact id⟩

/-- How a STEP from `s` can end in the next state `t`: the latched fatal with all else as before, or the commit of a state
that keeps what `Kept` says. -/
def EndsIn (s t : State) : Prop :=
  (∃ f, t = { s with err := s.err.or (some f) })
    ∨ ∃ s' p, PcLegal p ∧ Kept s s' ∧ t = { s' with pc := BitVec.ofNat 16 p }

theorem EndsIn.fatal {s t : State} {f : Fatal} (h : raiseFatal s f = .next t) : EndsIn s t :=
  .inl ⟨f, raiseFatal_next h⟩

theorem EndsIn.commit {s s' t : State} {p : Nat} (h : commit s s' p = .next t) (hk : Kept s s') : EndsIn s t :=
  (commit_next h).elim (fun e => .inr ⟨s', p, e.1, hk, e.2⟩) (fun e => .inl ⟨_, e.2⟩)

/-- Inversion of `exec`. -/
theorem exec_next {i : Instr} {s t : State} (h : exec i s = .next t) : EndsIn s t := by
  cases i with
  | ret =>
    rcases attempt_next h with ⟨⟨a, s'⟩, hp, hc⟩ | ⟨f, _, rfl⟩
    · refine EndsIn.commit hc ?_
      unfold pop at hp
      split at hp
      · simp at hp
      · split at hp
        · simp only [Except.ok.injEq, Prod.mk.injEq] at hp
          obtain ⟨_, rfl⟩ := hp
          exact ⟨rfl, rfl, rfl, rfl, fun hh => Nat.le_trans (Nat.sub_le _ _) hh, id⟩
        · simp at hp
    · exact .inl ⟨f, rfl⟩
  | call nnn =>
    rcases attempt_next h with ⟨s', hp, hc⟩ | ⟨f, _, rfl⟩
    · refine EndsIn.commit hc ?_
      unfold push at hp
      split at hp
      · next hroom =>
        simp only [Except.ok.injEq] at hp
        subst hp
        exact ⟨rfl, rfl, rfl, by simp, fun _ => by simpa using hroom, id⟩
      · split at hp <;> simp at hp
    · exact .inl ⟨f, rfl⟩
  | ldBcd x =>
    by_cases hi : s.i.toNat + 2 ≤ 4095
    · refine EndsIn.commit ((execLdBcd_inside hi).symm.trans h) ?_
      exact ⟨rfl, rfl, rfl, rfl, id, fun hw => Memory.wf_place hw _ _ (by simp [bcdDigits, dataAddr, Config.memSize]; omega)⟩
    · exact EndsIn.fatal ((execLdBcd_outside (by omega)).symm.trans h)
  | storeRegs x =>
    by_cases hi : s.i.toNat + x.toNat ≤ 4095
    · refine EndsIn.commit ((execStoreRegs_inside hi).symm.trans h) ?_
      exact ⟨rfl, rfl, rfl, rfl, id, fun hw => Memory.wf_place hw _ _ (by simp [dataAddr, Config.memSize]; omega)⟩
    · exact EndsIn.fatal ((execStoreRegs_outside (by omega)).symm.trans h)
  | loadRegs x =>
    by_cases hi : s.i.toNat + x.toNat ≤ 4095
    · exact EndsIn.commit ((execLoadRegs_inside hi).symm.trans h) (.of_fields rfl rfl rfl rfl rfl rfl)
    · exact EndsIn.fatal ((execLoadRegs_outside (by omega)).symm.trans h)
  | drw x y n =>
    by_cases h0 : spriteRows x y n s = 0 ∨ s.i.toNat + spriteRows x y n s ≤ 4096
    · obtain ⟨fb, hit, he, -⟩ := execDrw_inside h0
      exact EndsIn.commit (he.symm.trans h) (.of_fields rfl rfl rfl rfl rfl rfl)
    · exact EndsIn.fatal ((execDrw_outside (by omega) (by omega)).symm.trans h)
  | ldKey x =>
    cases hk : s.key with
    | none =>
      simp only [exec, execLdKey, hk] at h
      exact EndsIn.commit h (.of_fields rfl rfl rfl rfl rfl rfl)
    | some k =>
      simp only [exec, execLdKey, hk] at h
      exact EndsIn.commit h (.of_fields rfl rfl rfl rfl rfl rfl)
  | or | and | xor => exact EndsIn.commit h (.of_fields (by simp) (by simp) (by simp) (by simp) (by simp) (by simp))
  | addI x => exact EndsIn.commit h (.of_fields (by simp) (by simp) (by simp) (by simp) (by simp) (by simp))
  | _ => exact EndsIn.commit h (.of_fields rfl rfl rfl rfl rfl rfl)

/-- `exec` never answers a fault. -/
theorem exec_ne_fault (i : Instr) (s : State) (f : Fault) : exec i s ≠ .fault f := nomatch f

end Sys2Proof.Machine
end

