-- ==== Sys2Proof/Laws/PerInstr.lean ====
section
/-! SUPPORT. Statements made per instruction. Family `FixedBits`: the encoding of an instruction carries the fixed bits of
its row of spec/opcode_table.json (30_encoding.md R75), whatever its operands. -/

namespace Sys2Proof.Laws.FixedBits

/-- The `mask` of each row (30_encoding.md R75). -/
def mask : Instr → Word
  | .sys _ | .jp _ | .call _ | .seImm _ _ | .sneImm _ _ | .seReg _ _ | .ldImm _ _ | .addImm _ _
  | .sneReg _ _ | .ldI _ | .jpOffset _ | .rnd _ _ | .drw _ _ _ => 0xF000#16
  | .cls | .ret => 0xFFFF#16
  | .ldReg _ _ | .or _ _ | .and _ _ | .xor _ _ | .addReg _ _ | .sub _ _ | .shr _ _ | .subn _ _ | .shl _ _ => 0xF00F#16
  | .skp _ | .sknp _ | .ldFromDt _ | .ldKey _ | .ldDt _ | .ldSt _ | .addI _ | .ldFont _ | .ldBcd _
  | .storeRegs _ | .loadRegs _ => 0xF0FF#16

/-- The `match` of each row (30_encoding.md R75). -/
def code : Instr → Word
  | .sys _ => 0x0000#16
  | .cls => 0x00E0#16
  | .ret => 0x00EE#16
  | .jp _ => 0x1000#16
  | .call _ => 0x2000#16
  | .seImm _ _ => 0x3000#16
  | .sneImm _ _ => 0x4000#16
  | .seReg _ _ => 0x5000#16
  | .ldImm _ _ => 0x6000#16
  | .addImm _ _ => 0x7000#16
  | .ldReg _ _ => 0x8000#16
  | .or _ _ => 0x8001#16
  | .and _ _ => 0x8002#16
  | .xor _ _ => 0x8003#16
  | .addReg _ _ => 0x8004#16
  | .sub _ _ => 0x8005#16
  | .shr _ _ => 0x8006#16
  | .subn _ _ => 0x8007#16
  | .shl _ _ => 0x800E#16
  | .sneReg _ _ => 0x9000#16
  | .ldI _ => 0xA000#16
  | .jpOffset _ => 0xB000#16
  | .rnd _ _ => 0xC000#16
  | .drw _ _ _ => 0xD000#16
  | .skp _ => 0xE09E#16
  | .sknp _ => 0xE0A1#16
  | .ldFromDt _ => 0xF007#16
  | .ldKey _ => 0xF00A#16
  | .ldDt _ => 0xF015#16
  | .ldSt _ => 0xF018#16
  | .addI _ => 0xF01E#16
  | .ldFont _ => 0xF029#16
  | .ldBcd _ => 0xF033#16
  | .storeRegs _ => 0xF055#16
  | .loadRegs _ => 0xF065#16

/-- The word of the instruction has the row's fixed bits. -/
def Statement (i : Instr) : Prop := encode i &&& mask i = code i

/-! The operands lie outside the masks that they meet. -/

theorem placeX_masked : ∀ x : RegNum, placeX x &&& 0xF000#16 = 0#16 ∧ placeX x &&& 0xF00F#16 = 0#16
    ∧ placeX x &&& 0xF0FF#16 = 0#16 := by decide
theorem placeY_masked : ∀ y : RegNum, placeY y &&& 0xF000#16 = 0#16 ∧ placeY y &&& 0xF00F#16 = 0#16 := by decide
theorem placeN_masked : ∀ n : Nibble, placeN n &&& 0xF000#16 = 0#16 := by decide
theorem placeNN_masked : ∀ nn : Byte, placeNN nn &&& 0xF000#16 = 0#16 := by decide
theorem placeNNN_masked (nnn : Addr12) : placeNNN nnn &&& 0xF000#16 = 0#16 := by
  ext k hk
  interval_cases k <;> simp [placeNNN]

theorem sys (nnn : Addr12) : Statement (.sys nnn) := by
  simp [Statement, encode, mask, code, placeNNN_masked]
theorem cls : Statement .cls := rfl
theorem ret : Statement .ret := rfl
theorem jp (nnn : Addr12) : Statement (.jp nnn) := by
  simp [Statement, encode, mask, code, BitVec.and_or_distrib_right, placeNNN_masked]
theorem call (nnn : Addr12) : Statement (.call nnn) := by
  simp [Statement, encode, mask, code, BitVec.and_or_distrib_right, placeNNN_masked]
theorem seImm (x : RegNum) (nn : Byte) : Statement (.seImm x nn) := by
  simp [Statement, encode, mask, code, BitVec.and_or_distrib_right, placeX_masked, placeNN_masked]
theorem sneImm (x : RegNum) (nn : Byte) : Statement (.sneImm x nn) := by
  simp [Statement, encode, mask, code, BitVec.and_or_distrib_right, placeX_masked, placeNN_masked]
theorem seReg (x : RegNum) (y : RegNum) : Statement (.seReg x y) := by
  simp [Statement, encode, mask, code, BitVec.and_or_distrib_right, placeX_masked, placeY_masked]
theorem ldImm (x : RegNum) (nn : Byte) : Statement (.ldImm x nn) := by
  simp [Statement, encode, mask, code, BitVec.and_or_distrib_right, placeX_masked, placeNN_masked]
theorem addImm (x : RegNum) (nn : Byte) : Statement (.addImm x nn) := by
  simp [Statement, encode, mask, code, BitVec.and_or_distrib_right, placeX_masked, placeNN_masked]
theorem ldReg (x : RegNum) (y : RegNum) : Statement (.ldReg x y) := by
  simp [Statement, encode, mask, code, BitVec.and_or_distrib_right, placeX_masked, placeY_masked]
theorem or (x : RegNum) (y : RegNum) : Statement (.or x y) := by
  simp [Statement, encode, mask, code, BitVec.and_or_distrib_right, placeX_masked, placeY_masked]
theorem and (x : RegNum) (y : RegNum) : Statement (.and x y) := by
  simp [Statement, encode, mask, code, BitVec.and_or_distrib_right, placeX_masked, placeY_masked]
theorem xor (x : RegNum) (y : RegNum) : Statement (.xor x y) := by
  simp [Statement, encode, mask, code, BitVec.and_or_distrib_right, placeX_masked, placeY_masked]
theorem addReg (x : RegNum) (y : RegNum) : Statement (.addReg x y) := by
  simp [Statement, encode, mask, code, BitVec.and_or_distrib_right, placeX_masked, placeY_masked]
theorem sub (x : RegNum) (y : RegNum) : Statement (.sub x y) := by
  simp [Statement, encode, mask, code, BitVec.and_or_distrib_right, placeX_masked, placeY_masked]
theorem shr (x : RegNum) (y : RegNum) : Statement (.shr x y) := by
  simp [Statement, encode, mask, code, BitVec.and_or_distrib_right, placeX_masked, placeY_masked]
theorem subn (x : RegNum) (y : RegNum) : Statement (.subn x y) := by
  simp [Statement, encode, mask, code, BitVec.and_or_distrib_right, placeX_masked, placeY_masked]
theorem shl (x : RegNum) (y : RegNum) : Statement (.shl x y) := by
  simp [Statement, encode, mask, code, BitVec.and_or_distrib_right, placeX_masked, placeY_masked]
theorem sneReg (x : RegNum) (y : RegNum) : Statement (.sneReg x y) := by
  simp [Statement, encode, mask, code, BitVec.and_or_distrib_right, placeX_masked, placeY_masked]
theorem ldI (nnn : Addr12) : Statement (.ldI nnn) := by
  simp [Statement, encode, mask, code, BitVec.and_or_distrib_right, placeNNN_masked]
theorem jpOffset (nnn : Addr12) : Statement (.jpOffset nnn) := by
  simp [Statement, encode, mask, code, BitVec.and_or_distrib_right, placeNNN_masked]
theorem rnd (x : RegNum) (nn : Byte) : Statement (.rnd x nn) := by
  simp [Statement, encode, mask, code, BitVec.and_or_distrib_right, placeX_masked, placeNN_masked]
theorem drw (x : RegNum) (y : RegNum) (n : Nibble) : Statement (.drw x y n) := by
  simp [Statement, encode, mask, code, BitVec.and_or_distrib_right, placeX_masked, placeY_masked, placeN_masked]
theorem skp (x : RegNum) : Statement (.skp x) := by
  simp [Statement, encode, mask, code, BitVec.and_or_distrib_right, placeX_masked]
theorem sknp (x : RegNum) : Statement (.sknp x) := by
  simp [Statement, encode, mask, code, BitVec.and_or_distrib_right, placeX_masked]
theorem ldFromDt (x : RegNum) : Statement (.ldFromDt x) := by
  simp [Statement, encode, mask, code, BitVec.and_or_distrib_right, placeX_masked]
theorem ldKey (x : RegNum) : Statement (.ldKey x) := by
  simp [Statement, encode, mask, code, BitVec.and_or_distrib_right, placeX_masked]
theorem ldDt (x : RegNum) : Statement (.ldDt x) := by
  simp [Statement, encode, mask, code, BitVec.and_or_distrib_right, placeX_masked]
theorem ldSt (x : RegNum) : Statement (.ldSt x) := by
  simp [Statement, encode, mask, code, BitVec.and_or_distrib_right, placeX_masked]
theorem addI (x : RegNum) : Statement (.addI x) := by
  simp [Statement, encode, mask, code, BitVec.and_or_distrib_right, placeX_masked]
theorem ldFont (x : RegNum) : Statement (.ldFont x) := by
  simp [Statement, encode, mask, code, BitVec.and_or_distrib_right, placeX_masked]
theorem ldBcd (x : RegNum) : Statement (.ldBcd x) := by
  simp [Statement, encode, mask, code, BitVec.and_or_distrib_right, placeX_masked]
theorem storeRegs (x : RegNum) : Statement (.storeRegs x) := by
  simp [Statement, encode, mask, code, BitVec.and_or_distrib_right, placeX_masked]
theorem loadRegs (x : RegNum) : Statement (.loadRegs x) := by
  simp [Statement, encode, mask, code, BitVec.and_or_distrib_right, placeX_masked]

end Sys2Proof.Laws.FixedBits
end

