-- ==== Sys2Proof/Laws/Step.lean ====
section
/-! SUPPORT. What STEP, the cycle and a run of the machine can do. -/

namespace Sys2Proof.Machine

/-- STEP of a running core at a legal `pc` (40_step_and_dispatch.md R80, R82). -/
theorem stepTransaction_of_running {s : State} (h : s.err = none) (hp : PcLegal s.pc.toNat) :
    stepTransaction s = runWord (fetchWord s) s := by
  unfold stepTransaction
  rw [h, if_neg (by simp), if_pos hp]

/-- STEP of a halted core (R81). -/
theorem stepTransaction_of_halted {s : State} {f : Fatal} (h : s.err = some f) : stepTransaction s = .next s := by
  simp [stepTransaction, h]

/-- STEP of a running core at a `pc` that is not legal (R82). -/
theorem stepTransaction_of_illegal {s : State} (h : s.err = none) (hp : ¬ PcLegal s.pc.toNat) :
    stepTransaction s = raiseFatal s { code := .pcRange, info := s.pc.toNat } := by
  unfold stepTransaction
  rw [h, if_neg (by simp), if_neg hp]

/-- Dispatch of a word that decodes (R84). -/
theorem runWord_of_instr {w : Word} {i : Instr} (h : decodeWord w = .ok i) (s : State) : runWord w s = exec i s := by
  simp [runWord, h]

/-- Dispatch of a word that does not (R84). -/
theorem runWord_of_error {w : Word} {e : DecodeError} (h : decodeWord w = .error e) (s : State) :
    runWord w s = raiseFatal s { code := .unknownOpcode, info := w.toNat } := by
  simp [runWord, h]

/-- Inversion of STEP. -/
theorem stepTransaction_next {s t : State} (h : stepTransaction s = .next t) :
    (s.err ≠ none ∧ t = s) ∨ (s.err = none ∧ EndsIn s t) := by
  cases he : s.err with
  | some f => exact .inl ⟨by simp, by simpa [stepTransaction_of_halted he] using h.symm⟩
  | none =>
    refine .inr ⟨rfl, ?_⟩
    by_cases hp : PcLegal s.pc.toNat
    · rw [stepTransaction_of_running he hp] at h
      cases hd : decodeWord (fetchWord s) with
      | ok i => exact exec_next ((runWord_of_instr hd s).symm.trans h)
      | error e => exact .fatal ((runWord_of_error hd s).symm.trans h)
    · exact .fatal ((stepTransaction_of_illegal he hp).symm.trans h)

/-- A cycle is a STEP and then a TICK (60_exceptions.md R186). -/
theorem step_of_stepTransaction {s t : State} (h : stepTransaction s = .next t) : step s = .next (tick t) := by
  simp [step, cycle, h]

/-- Inversion of the cycle. -/
theorem step_next {s t : State} (h : step s = .next t) : ∃ u, stepTransaction s = .next u ∧ t = tick u := by
  cases hu : stepTransaction s with
  | next u => exact ⟨u, rfl, by simpa [step_of_stepTransaction hu] using h.symm⟩
  | fault r => exact nomatch r
  | refused r => simp [step, cycle, hu] at h

/-- A cycle of a halted core is a TICK (R81; log 1). -/
theorem step_of_halted {s : State} {f : Fatal} (h : s.err = some f) : step s = .next (tick s) :=
  step_of_stepTransaction (stepTransaction_of_halted h)

/-- A cycle of a program that has ended is a TICK (70_reset_and_hazards.md R207; log 14). -/
theorem State.EndedAt.step_eq {a : Nat} {s : State} (h : s.EndedAt a) : step s = .next (tick s) := by
  have hp : PcLegal s.pc.toNat := h.at_end ▸ h.legal
  have ha : (BitVec.ofNat 12 a).toNat = s.pc.toNat := by
    have := h.legal.2
    simp only [Config.pcMax] at this
    rw [BitVec.toNat_ofNat, h.at_end]
    omega
  refine step_of_stepTransaction ?_
  rw [stepTransaction_of_running h.running hp, runWord_of_instr h.jumps_to_itself]
  exact (commit_of_legal s s (ha ▸ hp)).trans (by rw [ha]; simp)

/-- TICK keeps the end of a program. -/
theorem State.EndedAt.tick {a : Nat} {s : State} (h : s.EndedAt a) : (Machine.tick s).EndedAt a :=
  ⟨h.running, h.at_end, h.legal, h.jumps_to_itself⟩

/-- A run of `k + 1` steps of any machine whose first one answers a next state. -/
theorem run_succ {M : Host.Core} {s t : M.State} (h : M.step s = .next t) (k : Nat) : M.run (k + 1) s = M.run k t := by
  rw [Host.Core.run, h]

/-- The same of the core. -/
theorem run_succ_of_step {s t : State} (h : step s = .next t) (k : Nat) :
    Host.Core.run Sys2Proof.core (k + 1) s = Host.Core.run Sys2Proof.core k t :=
  run_succ (M := Sys2Proof.core) h k

end Sys2Proof.Machine
end

