-- ==== Sys2Proof/Tests/Slice0.lean ====
section
/-! SUPPORT. The model's own tests. Expected values are those of spec/95_test_vectors.md (the vector is named in each
docstring) or read off the rule named there; `witness_` theorems show that the hypotheses of a statement can be met. -/

open Sys2Proof Sys2Proof.Machine Sys2Proof.Claims

namespace Sys2Proof.Tests

/-! ## Helpers -/

/-- The state after reset with some registers set. -/
def regs (rs : List (RegNum × Byte)) : State := rs.foldl (fun s r => s.setReg r.1 r.2) State.reset

/-- One STEP of the word `w`, placed at `pc`. -/
def one (w : Nat) (s : State) : Option State :=
  match stepTransaction (s.withFetchWord 16 w) with
  | .next t => some t
  | .fault _ => none
  | .refused _ => none

/-- `pc` and ERR after a STEP. -/
def pcErr (w : Nat) (s : State) : Option (Nat × Option Fatal) := (one w s).map fun t => (t.pc.toNat, t.err)

/-- One register and VF after a STEP. -/
def regVf (w : Nat) (x : RegNum) (s : State) : Option (Byte × Byte) := (one w s).map fun t => (t.reg x, t.reg 15#4)

/-- The state with bytes in memory. -/
def bytesAt (a : Nat) (bs : List Byte) (s : State) : State := { s with mem := s.mem.place a bs }

/-- A picture with the given cells lit. -/
def lit (cells : List (Nat × Nat)) : Framebuffer :=
  cells.foldl (fun fb c => setPixel fb c.1 c.2 true) (Vector.replicate 32 0#64)

/-- The picture and VF after a STEP. -/
def fbVf (w : Nat) (s : State) : Option (Framebuffer × Byte) := (one w s).map fun t => (t.fb, t.reg 15#4)

/-- Straps with one of them set. -/
def shiftVx : Quirks := { Quirks.allZero with shiftSource := .vx }
def jumpVx : Quirks := { Quirks.allZero with jumpOffsetRegister := .vx }
def overflowOn : Quirks := { Quirks.allZero with indexOverflowFlag := true }
def autoIncrement : Quirks := { Quirks.allZero with indexAutoIncrement := true }
def resetOnLogic : Quirks := { Quirks.allZero with flagResetOnLogic := true }

/-! ## WellFormed: the one check, by an ill-formed term it refuses -/

theorem test_wellFormed_refuses_sys_0E0 : (Instr.sys 0x0E0#12).wellFormed = false := by decide
theorem test_wellFormed_refuses_sys_0EE : (Instr.sys 0x0EE#12).wellFormed = false := by decide
theorem test_wellFormed_admits_the_neighbours :
    (Instr.sys 0x0E1#12).wellFormed = true ∧ (Instr.sys 0x1E0#12).wellFormed = true
      ∧ (Instr.sys 0x0EF#12).wellFormed = true ∧ (Instr.sys 0xFEE#12).wellFormed = true := by decide

/-! ## Decoding: words written out bit by bit from 30_encoding.md R61, R75 -/

theorem test_decode_group0 :
    decodeWord 0b0000_0010_0011_0100#16 = .ok (.sys 0x234#12) ∧ decodeWord 0b0000_0000_1110_0000#16 = .ok .cls
      ∧ decodeWord 0b0000_0000_1110_1110#16 = .ok .ret ∧ decodeWord 0b0000_1111_1110_1110#16 = .ok (.sys 0xFEE#12) := by
  decide

theorem test_decode_control :
    decodeWord 0b0001_1010_1011_1100#16 = .ok (.jp 0xABC#12) ∧ decodeWord 0b0010_0011_0000_0001#16 = .ok (.call 0x301#12)
      ∧ decodeWord 0b0011_0011_0010_1010#16 = .ok (.seImm 3#4 0x2A#8)
      ∧ decodeWord 0b0100_0011_0010_1010#16 = .ok (.sneImm 3#4 0x2A#8)
      ∧ decodeWord 0b0101_0001_0010_0000#16 = .ok (.seReg 1#4 2#4)
      ∧ decodeWord 0b0101_0001_0010_0111#16 = .ok (.seReg 1#4 2#4)
      ∧ decodeWord 0b1001_0001_0010_0000#16 = .ok (.sneReg 1#4 2#4)
      ∧ decodeWord 0b1001_0001_0010_1111#16 = .ok (.sneReg 1#4 2#4)
      ∧ decodeWord 0b1011_0010_0011_0100#16 = .ok (.jpOffset 0x234#12) := by decide

theorem test_decode_immediates :
    decodeWord 0b0110_1111_1010_1011#16 = .ok (.ldImm 15#4 0xAB#8)
      ∧ decodeWord 0b0111_1010_1111_1111#16 = .ok (.addImm 10#4 0xFF#8)
      ∧ decodeWord 0b1010_0011_0000_0000#16 = .ok (.ldI 0x300#12)
      ∧ decodeWord 0b1100_0001_1111_0000#16 = .ok (.rnd 1#4 0xF0#8)
      ∧ decodeWord 0b1101_0001_0010_0101#16 = .ok (.drw 1#4 2#4 5#4) := by decide

theorem test_decode_group8 :
    decodeWord 0b1000_0001_0010_0000#16 = .ok (.ldReg 1#4 2#4) ∧ decodeWord 0b1000_0001_0010_0001#16 = .ok (.or 1#4 2#4)
      ∧ decodeWord 0b1000_0001_0010_0010#16 = .ok (.and 1#4 2#4)
      ∧ decodeWord 0b1000_0001_0010_0011#16 = .ok (.xor 1#4 2#4)
      ∧ decodeWord 0b1000_0001_0010_0100#16 = .ok (.addReg 1#4 2#4)
      ∧ decodeWord 0b1000_0001_0010_0101#16 = .ok (.sub 1#4 2#4)
      ∧ decodeWord 0b1000_0001_0010_0110#16 = .ok (.shr 1#4 2#4)
      ∧ decodeWord 0b1000_0001_0010_0111#16 = .ok (.subn 1#4 2#4)
      ∧ decodeWord 0b1000_0001_0010_1110#16 = .ok (.shl 1#4 2#4) := by decide

theorem test_decode_groups_E_F :
    decodeWord 0b1110_0011_1001_1110#16 = .ok (.skp 3#4) ∧ decodeWord 0b1110_0011_1010_0001#16 = .ok (.sknp 3#4)
      ∧ decodeWord 0b1111_0011_0000_0111#16 = .ok (.ldFromDt 3#4)
      ∧ decodeWord 0b1111_0100_0000_1010#16 = .ok (.ldKey 4#4)
      ∧ decodeWord 0b1111_0011_0001_0101#16 = .ok (.ldDt 3#4) ∧ decodeWord 0b1111_0011_0001_1000#16 = .ok (.ldSt 3#4)
      ∧ decodeWord 0b1111_0001_0001_1110#16 = .ok (.addI 1#4)
      ∧ decodeWord 0b1111_0010_0010_1001#16 = .ok (.ldFont 2#4)
      ∧ decodeWord 0b1111_0100_0011_0011#16 = .ok (.ldBcd 4#4)
      ∧ decodeWord 0b1111_0010_0101_0101#16 = .ok (.storeRegs 2#4)
      ∧ decodeWord 0b1111_0010_0110_0101#16 = .ok (.loadRegs 2#4) := by decide

/-- 30_encoding.md R71 to R73. -/
theorem test_decode_refuses_by_name :
    decodeWord 0x8128#16 = .error (.unknownGroup8 0x8128#16) ∧ decodeWord 0x812F#16 = .error (.unknownGroup8 0x812F#16)
      ∧ decodeWord 0xE09F#16 = .error (.unknownGroupE 0xE09F#16) ∧ decodeWord 0xF075#16 = .error (.unknownGroupF 0xF075#16)
      ∧ decodeBytes [0x60#8] = .error .truncated := by decide

/-- The high byte stands at the lower address (20_memory.md R43; 30_encoding.md R78). -/
theorem test_bytes_are_big_endian :
    decodeBytes [0x63#8, 0x2A#8, 0xFF#8] = .ok (.ldImm 3#4 0x2A#8, [0xFF#8])
      ∧ encodeBytes (.ldImm 3#4 0x2A#8) = [0x63#8, 0x2A#8] ∧ decodeTableWord 16 0x632A = some (.ldImm 3#4 0x2A#8) := by
  decide

/-! ## One STEP -/

/-- T3: SYS, not CLS. -/
theorem test_sys_warns : (one 0x01E0 State.reset).map (fun t => (t.pc.toNat, t.warn))
    = some (0x202, some { code := .group0Unknown, info := 0x01E0#16 }) := by decide
/-- T13. -/
theorem test_sys_at_last_pc : (one 0x0000 { State.reset with pc := 0xFFE#16 }).map (fun t => (t.pc.toNat, t.err, t.warn))
    = some (0xFFE, some { code := .pcRange, info := 4096 }, none) := by decide
/-- G20. -/
theorem test_cls : fbVf 0x00E0 { regs [(15#4, 1#8)] with fb := lit [(0, 0), (5, 5), (31, 63)] } = some (lit [], 1#8) := by
  decide
/-- J11. -/
theorem test_ret : (one 0x00EE { State.reset with sp := 1, stk := [0x0202#16, 0#16] }).map
    (fun t => (t.pc.toNat, t.sp, t.stk)) = some (0x204, 0, [0x0202#16, 0#16]) := by decide
/-- J12. -/
theorem test_ret_past_end : (one 0x00EE { State.reset with sp := 1, stk := [0x0FFE#16] }).map
    (fun t => (t.pc.toNat, t.sp, t.err)) = some (0x200, 1, some { code := .pcRange, info := 4096 }) := by decide
/-- J3. -/
theorem test_jp : pcErr 0x1FFE State.reset = some (0xFFE, none) := by decide
/-- J4. -/
theorem test_jp_odd : pcErr 0x1201 State.reset = some (0x200, some { code := .pcRange, info := 0x201 }) := by decide
/-- J6. -/
theorem test_call : (one 0x2300 { State.reset with stk := [7#16, 7#16] }).map (fun t => (t.pc.toNat, t.sp, t.stk))
    = some (0x300, 1, [0x0200#16, 7#16]) := by decide
/-- J9. -/
theorem test_call_odd_discards_push : (one 0x2301 { State.reset with stk := [0#16] }).map
    (fun t => (t.pc.toNat, t.sp, t.stk, t.err))
    = some (0x200, 0, [0#16], some { code := .pcRange, info := 0x301 }) := by decide
/-- J13, J14. -/
theorem test_seImm : pcErr 0x332A (regs [(3#4, 0x2A#8)]) = some (0x204, none)
    ∧ pcErr 0x332B (regs [(3#4, 0x2A#8)]) = some (0x202, none) := by decide
/-- J25. -/
theorem test_seImm_past_end : pcErr 0x3000 { State.reset with pc := 0xFFC#16 }
    = some (0xFFC, some { code := .pcRange, info := 4096 }) := by decide
/-- J15, J16. -/
theorem test_sneImm : pcErr 0x432A (regs [(3#4, 0x2A#8)]) = some (0x202, none)
    ∧ pcErr 0x432B (regs [(3#4, 0x2A#8)]) = some (0x204, none) := by decide
/-- J18, J19. -/
theorem test_seReg : pcErr 0x5120 (regs [(1#4, 9#8), (2#4, 8#8)]) = some (0x202, none)
    ∧ pcErr 0x5127 (regs [(1#4, 9#8), (2#4, 9#8)]) = some (0x204, none) := by decide
/-- J22, J23. -/
theorem test_sneReg : pcErr 0x9120 (regs [(1#4, 9#8), (2#4, 9#8)]) = some (0x202, none)
    ∧ pcErr 0x912F (regs [(1#4, 9#8), (2#4, 8#8)]) = some (0x204, none) := by decide
/-- J27, J28. -/
theorem test_jpOffset : pcErr 0xB300 (regs [(0#4, 0x10#8), (3#4, 2#8)]) = some (0x310, none)
    ∧ pcErr 0xB300 { regs [(0#4, 0x10#8), (3#4, 2#8)] with q := jumpVx } = some (0x302, none) := by decide
/-- J32. -/
theorem test_jpOffset_past_end : pcErr 0xBFFF (regs [(0#4, 0xFF#8)])
    = some (0x200, some { code := .pcRange, info := 4350 }) := by decide
/-- A29. -/
theorem test_ldImm : regVf 0x6FAB 15#4 State.reset = some (0xAB#8, 0xAB#8) := by decide
/-- T12. -/
theorem test_ldImm_at_last_pc : (one 0x6012 { State.reset with pc := 0xFFE#16 }).map (fun t => (t.reg 0#4, t.err))
    = some (0#8, some { code := .pcRange, info := 4096 }) := by decide
/-- A26, A28. -/
theorem test_addImm : regVf 0x7AFF 10#4 (regs [(10#4, 2#8)]) = some (1#8, 0#8)
    ∧ regVf 0x7F01 15#4 (regs [(15#4, 0x10#8)]) = some (0x11#8, 0x11#8) := by decide
/-- A25. -/
theorem test_ldReg : regVf 0x8120 1#4 { regs [(2#4, 0x5A#8), (15#4, 1#8)] with q := resetOnLogic }
    = some (0x5A#8, 1#8) := by decide
/-- A19, A20. -/
theorem test_or : regVf 0x8121 1#4 { regs [(1#4, 0x0F#8), (2#4, 0xF0#8), (15#4, 1#8)] with q := resetOnLogic }
      = some (0xFF#8, 0#8)
    ∧ regVf 0x8121 1#4 (regs [(1#4, 0x0F#8), (2#4, 0xF0#8), (15#4, 1#8)]) = some (0xFF#8, 1#8) := by decide
/-- A21. -/
theorem test_and : regVf 0x8122 1#4 (regs [(1#4, 0x3C#8), (2#4, 0x0F#8)]) = some (0x0C#8, 0#8) := by decide
/-- A23, A24. -/
theorem test_xor : regVf 0x8F13 15#4 { regs [(15#4, 0xAA#8), (1#4, 0xFF#8)] with q := resetOnLogic } = some (0#8, 0#8)
    ∧ regVf 0x8F13 15#4 (regs [(15#4, 0xAA#8), (1#4, 0xFF#8)]) = some (0x55#8, 0x55#8) := by decide
/-- A2, A4. -/
theorem test_addReg : regVf 0x8124 1#4 (regs [(1#4, 0xFF#8), (2#4, 1#8)]) = some (0#8, 1#8)
    ∧ regVf 0x8124 1#4 (regs [(1#4, 0x80#8), (2#4, 0x7F#8), (15#4, 1#8)]) = some (0xFF#8, 0#8) := by decide
/-- A6. -/
theorem test_addReg_into_vf : regVf 0x8F14 1#4 (regs [(15#4, 0xF0#8), (1#4, 0x20#8)]) = some (0x20#8, 1#8) := by decide
/-- A7, A8. -/
theorem test_sub : regVf 0x8125 1#4 (regs [(1#4, 7#8), (2#4, 7#8)]) = some (0#8, 1#8)
    ∧ regVf 0x8125 1#4 (regs [(2#4, 1#8)]) = some (0xFF#8, 0#8) := by decide
/-- A13, A14. -/
theorem test_shr : regVf 0x8126 1#4 (regs [(1#4, 0xFF#8), (2#4, 0x80#8)]) = some (0x40#8, 0#8)
    ∧ regVf 0x8126 1#4 { regs [(1#4, 0xFF#8), (2#4, 0x80#8)] with q := shiftVx } = some (0x7F#8, 1#8) := by decide
/-- A15. -/
theorem test_shr_into_vf : regVf 0x8F16 1#4 (regs [(15#4, 3#8), (1#4, 5#8)]) = some (5#8, 1#8) := by decide
/-- A11, A12. -/
theorem test_subn : regVf 0x8127 1#4 (regs [(1#4, 7#8), (2#4, 5#8)]) = some (0xFE#8, 0#8)
    ∧ regVf 0x8127 1#4 (regs [(1#4, 7#8), (2#4, 7#8)]) = some (0#8, 1#8) := by decide
/-- A17, A18. -/
theorem test_shl : regVf 0x812E 1#4 (regs [(1#4, 0x7F#8), (2#4, 0xFF#8)]) = some (0xFE#8, 1#8)
    ∧ regVf 0x812E 1#4 { regs [(1#4, 0x7F#8), (2#4, 0xFF#8)] with q := shiftVx } = some (0xFE#8, 0#8) := by decide
/-- A31: the draw is the argument of the STEP. -/
theorem test_rnd_masks_the_draw : (match rndWith 0xA5#8 1#4 0xF0#8 (regs [(1#4, 0x33#8)]) with
    | .next t => some (t.reg 1#4)
    | _ => none) = some 0xA0#8 := by decide
/-- A32: every draw gives 0 under the mask 0. -/
theorem test_rnd_mask_zero : ∀ draw : Byte, draw &&& 0x00#8 = 0#8 := by decide
/-- M1. -/
theorem test_ldI : (one 0xA300 { State.reset with i := 0xFFFF#16 }).map (·.i.toNat) = some 0x300 := by decide
/-- M3, M5. -/
theorem test_addI : (one 0xF11E { regs [(1#4, 3#8)] with i := 0x0FFE#16, q := overflowOn }).map
      (fun t => (t.i.toNat, t.reg 15#4)) = some (0x1001, 1#8)
    ∧ (one 0xF11E { regs [(1#4, 2#8)] with i := 0x0FFE#16, q := overflowOn }).map
      (fun t => (t.i.toNat, t.reg 15#4)) = some (0x1000, 0#8) := by decide
/-- M6, M7. -/
theorem test_addI_never_clears_vf : (one 0xF11E { regs [(1#4, 2#8), (15#4, 1#8)] with i := 0x0100#16, q := overflowOn }).map
      (fun t => (t.i.toNat, t.reg 15#4)) = some (0x0102, 1#8)
    ∧ (one 0xF11E { regs [(1#4, 2#8)] with i := 0xFFFF#16, q := overflowOn }).map
      (fun t => (t.i.toNat, t.reg 15#4)) = some (0x0001, 0#8) := by decide
/-- M9, M12. -/
theorem test_ldFont : (one 0xF229 (regs [(2#4, 0x0A#8)])).map (·.i.toNat) = some 130
    ∧ (one 0xF229 (regs [(2#4, 0xFF#8)])).map (·.i.toNat) = some 1355 := by decide
/-- M14. -/
theorem test_ldBcd : (one 0xF433 { regs [(4#4, 0xC7#8)] with i := 0x0FFD#16 }).map
    (fun t => ([0xFFD, 0xFFE, 0xFFF].map t.mem.read, t.i.toNat)) = some ([1#8, 9#8, 9#8], 0xFFD) := by decide
/-- M15. -/
theorem test_ldBcd_past_end : (one 0xF433 { regs [(4#4, 0xC7#8)] with i := 0x0FFE#16 }).map
    (fun t => ([0xFFE, 0xFFF].map t.mem.read, t.err))
    = some ([0#8, 0#8], some { code := .memRange, info := 4096 }) := by decide
/-- M17, M18. -/
theorem test_storeRegs : (one 0xF255 { regs [(0#4, 0x11#8), (1#4, 0x22#8), (2#4, 0x33#8), (3#4, 0x44#8)] with
      i := 0x400#16, q := autoIncrement }).map (fun t => ([0x400, 0x401, 0x402, 0x403].map t.mem.read, t.i.toNat))
    = some ([0x11#8, 0x22#8, 0x33#8, 0#8], 0x403)
    ∧ (one 0xF055 { regs [(0#4, 0x11#8), (1#4, 0x22#8)] with i := 0x400#16 }).map
      (fun t => ([0x400, 0x401].map t.mem.read, t.i.toNat)) = some ([0x11#8, 0#8], 0x400) := by decide
/-- M20. -/
theorem test_storeRegs_past_end : (one 0xF255 { regs [(0#4, 0x11#8), (1#4, 0x22#8)] with
      i := 0xFFE#16, q := autoIncrement }).map (fun t => ([0xFFE, 0xFFF].map t.mem.read, t.i.toNat, t.err))
    = some ([0#8, 0#8], 0xFFE, some { code := .memRange, info := 4096 }) := by decide
/-- M21. -/
theorem test_loadRegs : (one 0xF265 (bytesAt 0x400 [0xAA#8, 0xBB#8, 0xCC#8, 0xDD#8]
      { regs [(3#4, 0x77#8)] with i := 0x400#16, q := autoIncrement })).map
    (fun t => ([0#4, 1#4, 2#4, 3#4].map t.reg, t.i.toNat)) = some ([0xAA#8, 0xBB#8, 0xCC#8, 0x77#8], 0x403) := by decide
/-- M23. -/
theorem test_loadRegs_past_end : (one 0xFF65 { regs [(3#4, 0x77#8)] with i := 0x0FF1#16 }).map
    (fun t => (t.reg 3#4, t.err)) = some (0x77#8, some { code := .memRange, info := 4096 }) := by decide
/-- G11: a collision, then the forced origin. -/
theorem test_drw_collision : fbVf 0xD121 (bytesAt 0x300 [0x40#8]
      { regs [(1#4, 8#8), (2#4, 4#8)] with i := 0x300#16, fb := lit [(4, 9)] }) = some (lit [(4, 8)], 1#8) := by decide
/-- G7: the column abort ends the draw. -/
theorem test_drw_column_abort : fbVf 0xD122 (bytesAt 0x300 [0xFF#8, 0xFF#8] { regs [(1#4, 0x39#8)] with i := 0x300#16 })
    = some (lit [(0, 57), (0, 58), (0, 59), (0, 60), (0, 61), (0, 62), (0, 63)], 0#8) := by decide
/-- K2, K5. -/
theorem test_skp : (one 0xE39E { regs [(3#4, 6#8)] with key := some 5#4 }).map (fun t => (t.pc.toNat, t.key))
      = some (0x202, none)
    ∧ (one 0xE39E { regs [(3#4, 0x1A#8)] with key := some 0xA#4 }).map (fun t => (t.pc.toNat, t.key))
      = some (0x204, none) := by decide
/-- K6, K7. -/
theorem test_sknp : (one 0xE3A1 (regs [(3#4, 5#8)])).map (fun t => (t.pc.toNat, t.key)) = some (0x204, none)
    ∧ (one 0xE3A1 { regs [(3#4, 5#8)] with key := some 5#4 }).map (fun t => (t.pc.toNat, t.key))
      = some (0x202, none) := by decide
/-- K9, K11. -/
theorem test_ldKey : (one 0xF40A (regs [(4#4, 0x77#8)])).map (fun t => (t.pc.toNat, t.reg 4#4)) = some (0x200, 0x77#8)
    ∧ (one 0xF40A { regs [(4#4, 0x77#8)] with key := some 0#4 }).map (fun t => (t.pc.toNat, t.reg 4#4, t.key))
      = some (0x202, 0#8, none) := by decide
/-- K12. -/
theorem test_ldFromDt : (one 0xF307 { State.reset with dt := 0x2A#8 }).map
    (fun t => (t.reg 3#4, t.dt, (tick t).dt)) = some (0x2A#8, 0x2A#8, 0x29#8) := by decide
/-- K13. -/
theorem test_ldDt : (one 0xF315 (regs [(3#4, 0x3C#8)])).map (fun t => (t.dt, (tick t).dt)) = some (0x3C#8, 0x3B#8) := by
  decide
/-- K14. -/
theorem test_ldSt : (one 0xF318 (regs [(3#4, 8#8)])).map (fun t => (t.st, (tick t).st, t.dt)) = some (8#8, 7#8, 0#8) := by
  decide

/-! ## The machine around the instructions -/

/-- T9. -/
theorem test_unknown_word : (one 0xE09F { State.reset with key := some 1#4 }).map (fun t => (t.pc.toNat, t.key, t.err))
    = some (0x200, some 1#4, some { code := .unknownOpcode, info := 0xE09F }) := by decide
/-- T15. -/
theorem test_fetch_guard : pcErr 0x6005 { State.reset with pc := 0x201#16 }
    = some (0x201, some { code := .pcRange, info := 0x201 }) := by decide
/-- K15, K16. -/
theorem test_tick_floor : (tick { State.reset with dt := 1#8 }).dt = 0#8
    ∧ (tick (tick { State.reset with dt := 1#8 })).dt = 0#8 := by decide
/-- K18, K19. -/
theorem test_feedKey : (feedKey (some 7#4) { State.reset with key := some 3#4 }).key = some 7#4
    ∧ (feedKey none { State.reset with key := some 3#4 }).key = none := by decide
/-- 10_state.md R31: the ends of glyphs 0 and F at addresses 80 and 159, and the first byte after the font. -/
theorem test_font_at_reset : [80, 81, 159, 160].map State.reset.mem.read = [0xF0#8, 0x90#8, 0x80#8, 0#8] := by decide
/-- 70_reset_and_hazards.md R204: a program one byte too long is refused. -/
theorem test_loadProgram_too_long : (loadProgram (List.replicate 3585 1#8) State.reset).1 = .tooLong := by
  rw [loadProgram, if_neg (by rw [List.length_replicate]; decide)]
/-- 60_exceptions.md R186: a cycle is a STEP and then a TICK. -/
theorem test_step_ticks : (match step ({ regs [(3#4, 0x3C#8)] with st := 1#8 }.withFetchWord 16 0xF315) with
    | .next t => some (t.dt, t.st)
    | _ => none) = some (0x3B#8, 0#8) := by decide

/-! ## Witnesses: the hypotheses of each statement can be met, each clause at the edge of its range -/

/-- A running core at the last address from which a plain instruction completes, and at the last legal `pc`. -/
def late : State := { regs [(0#4, 0x10#8), (1#4, 0xFF#8), (2#4, 0x80#8), (3#4, 2#8)] with pc := 4092#16 }
def last : State := { State.reset with pc := 4094#16 }
/-- A running core whose next word is `w`. -/
def about (w : Nat) : State := State.reset.withFetchWord 16 w

theorem witness_DecodeAfterEncodeReturnsInstruction :
    (Instr.sys 0x0E1#12).wellFormed = true ∧ (Instr.drw 15#4 0#4 15#4).wellFormed = true := by decide
/-- A plain word, and words of groups 5 and 9 with an ignored nibble. -/
theorem witness_EncodeAfterDecodeReturnsWord :
    decodeWord 0x8F0E#16 = .ok (.shl 15#4 0#4) ∧ decodeWord 0x5127#16 = .ok (.seReg 1#4 2#4)
      ∧ decodeWord 0x912F#16 = .ok (.sneReg 1#4 2#4) := by decide
/-- Two rows select 0x00E0; the one with the larger mask wins. No row selects 0x8008. -/
theorem witness_OpcodeMapRowSelectsInstruction :
    (opcodeMap.filter fun r => 0x00E0#16 &&& r.mask = r.code).map (fun r => (r.mask, r.build 0x00E0#16))
      = [(0xF000#16, .sys 0x0E0#12), (0xFFFF#16, .cls)]
      ∧ (opcodeMap.filter fun r => 0x8008#16 &&& r.mask = r.code).isEmpty = true := by decide
/-- Each listed group, and words that are not listed, the last legal `pc` included. -/
theorem witness_UnknownOpcodeRaisedByListedWordsOnly :
    PcLegal last.pc.toNat ∧ last.err = none ∧ nOf (fetchWord (about 0x812F)) ∈ [0x8#4, 0xF#4]
      ∧ opOf (fetchWord (about 0x812F)) = 8#4 ∧ opOf (fetchWord (about 0xE09F)) = 0xE#4
      ∧ nnOf (fetchWord (about 0xE09F)) ∉ [0x9E#8, 0xA1#8] ∧ opOf (fetchWord (about 0xF000)) = 0xF#4
      ∧ nnOf (fetchWord (about 0xF000)) = 0#8 ∧ opOf (fetchWord (about 0x0FFF)) = 0#4
      ∧ nnOf (fetchWord (about 0xE09E)) = 0x9E#8 := by decide
theorem witness_StepRunsDecodedInstructionThenTicks :
    (last.withFetchWord 16 0x1200).err = none ∧ PcLegal (last.withFetchWord 16 0x1200).pc.toNat
      ∧ decodeBytes [(last.withFetchWord 16 0x1200).mem.read 4094, (last.withFetchWord 16 0x1200).mem.read 4095]
        = .ok (.jp 0x200#12, []) := by decide
theorem witness_HaltedStepChangesNothing : { last with err := some ⟨.pcRange, 4096⟩ }.err = some ⟨.pcRange, 4096⟩ := rfl
/-- The smallest odd `pc`, the largest odd one inside MEM, the first even one outside, and the largest of all. -/
theorem witness_FetchGuardRaisesPcRange :
    State.reset.err = none ∧ (1#16).toNat % 2 = 1 ∧ (4095#16).toNat % 2 = 1 ∧ 4094 < (4096#16).toNat
      ∧ 4094 < (65535#16).toNat := by decide
theorem witness_FatalStepChangesOnlyErr :
    ∃ t, stepTransaction { State.reset with pc := 1#16 } = .next t ∧ t.err ≠ none :=
  ⟨_, stepTransaction_of_illegal rfl (by decide), by decide⟩
/-- Both ends of SP; each fault of an operand; a legal and an illegal `pc_next`. -/
theorem witness_ExecEndsInTheOrderOfChecks :
    State.reset.err = none ∧ State.reset.sp ≤ State.reset.stk.length
      ∧ { State.reset with sp := 16 }.sp ≤ { State.reset with sp := 16 }.stk.length
      ∧ ownFault .ret State.reset = some ⟨.stackUnderflow, 512⟩
      ∧ ownFault (.call 0#12) { State.reset with sp := 16 } = some ⟨.stackOverflow, 512⟩
      ∧ ownFault (.ldBcd 0#4) { State.reset with i := 4094#16 } = some ⟨.memRange, 4096⟩
      ∧ ownFault (.ldBcd 0#4) { State.reset with i := 4093#16 } = none
      ∧ ownFault (.storeRegs 15#4) { State.reset with i := 4081#16 } = some ⟨.memRange, 4096⟩
      ∧ ownFault (.loadRegs 15#4) { State.reset with i := 4080#16 } = none
      ∧ ownFault (.drw 0#4 0#4 15#4) { State.reset with i := 4082#16 } = some ⟨.memRange, 4096⟩
      ∧ ownFault (.drw 0#4 0#4 15#4) { State.reset with i := 4081#16 } = none
      ∧ ownFault (.drw 0#4 0#4 1#4) { State.reset with i := 65535#16 } = some ⟨.memRange, 65535⟩
      ∧ pcNextOf (.jp 0xFFE#12) State.reset = 4094 ∧ pcNextOf .cls last = 4096 := by decide
theorem witness_ExecRefusesOnlyStackBeyondCapacity :
    { State.reset with sp := 17 }.stk.length < { State.reset with sp := 17 }.sp := by decide
/-- A state that meets the invariants with SP at its limit, and a halted one at an illegal `pc`. -/
theorem witness_StepKeepsGood :
    { last with sp := 16 }.Good ∧ { last with pc := 1#16, err := some ⟨.pcRange, 1⟩ }.Good
      ∧ ∃ t, step { last with sp := 16 } = .next t :=
  ⟨⟨by decide, by decide, by decide⟩, ⟨by decide, by decide, by decide⟩, _, rfl⟩
theorem witness_EveryTransactionSequenceKeepsGood : { State.reset with sp := 16 }.Good :=
  ⟨by decide, by decide, by decide⟩
/-- A RESET and another transaction, of one halted state. -/
theorem witness_ErrStaysLatchedUntilReset :
    let s := { last with err := some ⟨.memRange, 4096⟩ }
    s.err = some ⟨.memRange, 4096⟩
      ∧ (∃ t, transact (.reset Quirks.allZero (.replicate 80 1#8) (.replicate 80 2#8)) s = .next t)
      ∧ (∀ q font label, Transaction.step ≠ .reset q font label) ∧ ∃ t, transact .step s = .next t :=
  ⟨rfl, ⟨_, rfl⟩, by simp, _, rfl⟩
theorem witness_StrapsSampledByResetOnly :
    (∃ t, transact (.reset shiftVx (.replicate 80 1#8) (.replicate 80 2#8)) late = .next t)
      ∧ ∃ t, transact (.loadProgram [1#8]) late = .next t := ⟨⟨_, rfl⟩, _, rfl⟩
/-- An instruction that writes memory keeps the picture; one that draws keeps memory. -/
theorem witness_InstructionsWriteOnlyTheirParts :
    (∃ t, exec (.ldBcd 1#4) late = .next t) ∧ Part.fb ≠ .err ∧ Part.fb ∉ partsWritten (.ldBcd 1#4)
      ∧ Part.mem ∉ partsWritten (.drw 0#4 0#4 1#4) := ⟨⟨_, rfl⟩, by decide, by decide, by decide⟩
theorem witness_InstructionsWriteOnlyTheirRegisters :
    (∃ t, exec (.addReg 1#4 2#4) late = .next t) ∧ ¬ MayWriteReg (.addReg 1#4 2#4) late 3#4
      ∧ ¬ MayWriteReg (.loadRegs 14#4) late 15#4 ∧ ¬ MayWriteReg (.or 1#4 2#4) late 15#4 := by
  refine ⟨⟨_, rfl⟩, ?_, ?_, ?_⟩ <;> simp only [MayWriteReg] <;> decide
theorem witness_WarnAndSoundTimerAreNeverRead : ∃ t, exec (.sys 0x234#12) late = .next t := ⟨_, rfl⟩
theorem witness_OnlyRndReadsTheDraw :
    (∀ x nn, Instr.drw 1#4 2#4 1#4 ≠ .rnd x nn) ∧ ∃ t, exec (.drw 1#4 2#4 1#4) late = .next t :=
  ⟨by simp, _, rfl⟩

/-- The one hypothesis `PcLegal (s.pc.toNat + 2)`, at its edge, of SysWarnsAndContinues, LoadImmediateWritesVx,
AddImmediateWrapsWithoutFlag, LoadRegisterCopiesVy, AddRegistersSetsCarry, SubtractionsSetNoBorrow, RandomByteIsMasked,
LoadIndexWritesImmediate, FontIndexIsFiveTimesRegister, ClearScreenZeroesEveryCell, EmptyDrawLightsOriginOnly and
TimerMovesCopyTheByte; the statements above and below that have it too share it. -/
theorem witness_plain_instructions_complete : PcLegal (late.pc.toNat + 2) ∧ ¬ PcLegal (last.pc.toNat + 2) := by decide

theorem witness_RetResumesAfterPoppedAddress :
    let s := { State.reset with sp := 16, stk := List.replicate 16 4092#16 }
    0 < s.sp ∧ s.stk[s.sp - 1]? = some 4092#16 ∧ PcLegal ((4092#16).toNat + 2) := by decide
theorem witness_RetOnEmptyStackIsFatal : State.reset.err = none ∧ State.reset.sp = 0 := by decide
theorem witness_JumpGoesToEvenTarget :
    (0xFFE#12).toNat % 2 = 0 ∧ (0#12).toNat % 2 = 0 ∧ late.err = none ∧ (0xFFF#12).toNat % 2 = 1 := by decide
theorem witness_CallPushesItsOwnAddress :
    { State.reset with sp := 15 }.sp < { State.reset with sp := 15 }.stk.length ∧ (0xFFE#12).toNat % 2 = 0 := by decide
theorem witness_CallOnFullStackIsFatal :
    { State.reset with sp := 16 }.err = none ∧ { State.reset with sp := 16 }.sp = { State.reset with sp := 16 }.stk.length := by
  decide
/-- The state `u` is the one after the call with everything but the stack changed. -/
theorem witness_RetUndoesCall :
    ∃ t u : State, exec (.call 0x300#12) { late with sp := 15 } = .next t ∧ { late with sp := 15 }.err = none
      ∧ { late with sp := 15 }.sp ≤ { late with sp := 15 }.stk.length ∧ PcLegal ({ late with sp := 15 }.pc.toNat + 2)
      ∧ t.err = none ∧ u.sp = t.sp ∧ u.stk = t.stk ∧ u.pc ≠ t.pc ∧ u.dt ≠ t.dt :=
  ⟨_, { late with sp := 16, stk := late.stk.set 15 4092#16, dt := 9#8 }, execCall_of_room (by decide), by decide,
    by decide, by decide, by decide, by decide, by decide, by decide, by decide⟩
/-- From 4092 a plain advance is legal and a taken skip is not; from 4090 both are. -/
theorem witness_SkipsOnImmediateTestTheRegister :
    late.err = none ∧ PcLegal (late.pc.toNat + (if late.reg 0#4 = 0x11#8 then 4 else 2))
      ∧ ¬ PcLegal (late.pc.toNat + (if late.reg 0#4 = 0x10#8 then 4 else 2))
      ∧ PcLegal ({ late with pc := 4090#16 }.pc.toNat + (if late.reg 0#4 = 0x11#8 then 2 else 4)) := by decide
theorem witness_SkipsOnRegistersCompareThem :
    late.err = none ∧ PcLegal (late.pc.toNat + (if late.reg 0#4 = late.reg 1#4 then 4 else 2))
      ∧ ¬ PcLegal (late.pc.toNat + (if late.reg 4#4 = late.reg 5#4 then 4 else 2))
      ∧ ¬ PcLegal (late.pc.toNat + (if late.reg 0#4 = late.reg 1#4 then 2 else 4)) := by decide
/-- Both straps; the sum at the last legal `pc`, one past it, and odd. -/
theorem witness_OffsetJumpAddsTheStrapsRegister :
    late.err = none ∧ late.q.jumpOffsetRegister = .v0 ∧ { late with q := jumpVx }.q.jumpOffsetRegister = .vx
      ∧ PcLegal ((0xFEE#12).toNat + (late.reg 0#4).toNat) ∧ ¬ PcLegal ((0xFF0#12).toNat + (late.reg 0#4).toNat)
      ∧ PcLegal ((0x300#12).toNat + (late.reg ((0x300#12).extractLsb' 8 4)).toNat)
      ∧ ¬ PcLegal ((0x301#12).toNat + (late.reg ((0x301#12).extractLsb' 8 4)).toNat) := by decide
/-- Each logic operation, both straps. -/
theorem witness_LogicOperationsWriteVxAndStrappedFlag :
    { late with q := resetOnLogic }.q.flagResetOnLogic = true ∧ late.q.flagResetOnLogic = false
      ∧ PcLegal ({ late with q := resetOnLogic }.pc.toNat + 2)
      ∧ (Instr.or 15#4 1#4 = .or 15#4 1#4 ∧ 0x8001#16 = 0x8001#16) := by decide
/-- Both straps of the shift source. -/
theorem witness_ShiftsMoveOneBitIntoFlag :
    PcLegal (late.pc.toNat + 2)
      ∧ 0x80#8 = (match late.q.shiftSource with | .vy => late.reg 2#4 | .vx => late.reg 1#4)
      ∧ 0xFF#8 = (match { late with q := shiftVx }.q.shiftSource with | .vy => late.reg 2#4 | .vx => late.reg 1#4) := by
  decide
/-- A sum one past the limit, at the limit, and past it with the strap off. -/
theorem witness_AddIndexSetsFlagPastLimit :
    let s := { late with i := 0xFFF#16, q := overflowOn }
    (s.q.indexOverflowFlag = true ∧ s.indexLimit < (s.i.toNat + (s.reg 3#4).toNat) % 65536)
      ∧ ¬ s.indexLimit < ({ s with i := 0xFFE#16 }.i.toNat + (s.reg 3#4).toNat) % 65536
      ∧ late.q.indexOverflowFlag = false := by decide
theorem witness_BcdStoresThreeDigits :
    { late with i := 4093#16 }.i.toNat + 2 ≤ 4095 ∧ 4095 < { late with i := 4094#16 }.i.toNat + 2 ∧ late.err = none
      ∧ PcLegal (late.pc.toNat + 2) := by decide
theorem witness_StoreRegistersFillsMemoryFromIndex :
    { late with i := 4080#16 }.i.toNat + (15#4).toNat ≤ 4095 ∧ 4095 < { late with i := 4081#16 }.i.toNat + (15#4).toNat
      ∧ { late with i := 4095#16 }.i.toNat + (0#4).toNat ≤ 4095 ∧ 4095 < { late with i := 4096#16 }.i.toNat + (0#4).toNat
      ∧ late.err = none := by decide
theorem witness_LoadRegistersReadsMemoryFromIndex :
    { late with i := 4080#16 }.i.toNat + (15#4).toNat ≤ 4095 ∧ 4095 < { late with i := 4081#16 }.i.toNat + (15#4).toNat
      ∧ late.err = none := by decide
theorem witness_StoredRegistersAreFetched :
    1 ≤ (1#4).toNat ∧ ∃ t, exec (.storeRegs 1#4) { late with i := 4094#16 } = .next t ∧ t.err = none :=
  ⟨by decide, _, rfl, by decide⟩
/-- A write of the byte an address reads as unlisted leaves nothing listed. -/
theorem witness_CanonicalMemoryIsUnique :
    Memory.wf (Memory.write (Memory.write [] 4095 7#8) 0 1#8)
      ∧ Memory.write (Memory.write [] 4095 7#8) 4095 0#8 = [] := by decide
/-- No row, one row at the last byte of MEM, and a clipped draw. -/
theorem witness_DrawTogglesExactlyTheDrawnBits :
    PcLegal (late.pc.toNat + 2) ∧ drawCol late 1#4 = 63 ∧ drawRow late 1#4 = 31
      ∧ processedRows 63 31 15 = 1 ∧ processedRows 56 17 15 = 15 ∧ processedRows 56 18 15 = 14 ∧ processedRows 0 0 0 = 0
      ∧ SpriteReadable { late with i := 4095#16 } 63 31 15 ∧ SpriteReadable { late with i := 65535#16 } 0 0 0 := by
  refine ⟨?_, ?_, ?_, ?_, ?_, ?_, ?_, .inr ?_, .inl ?_⟩ <;> decide
/-- A drawn bit on a lit cell, and a draw with none. -/
theorem witness_DrawFlagIsCollision :
    let s := bytesAt 0x300 [0x40#8] { late with i := 0x300#16, fb := lit [(16, 17)] }
    Drawn s 16 16 1 16 17 ∧ pixel s.fb 16 17 = true ∧ (∃ t, exec (.drw 0#4 0#4 1#4) s = .next t ∧ t.err = none)
      ∧ pixel late.fb 16 17 = false ∧ s.err = none := by
  refine ⟨⟨?_, ?_, ?_, ?_, ?_, ?_⟩, ?_, ⟨_, rfl, ?_⟩, ?_, ?_⟩ <;> decide
theorem witness_KeySkipsTestAndConsumeLatch :
    let s := { late with key := some 0#4 }
    s.err = none ∧ ¬ PcLegal (s.pc.toNat + (if s.key = some ((s.reg 0#4).setWidth 4) then 4 else 2))
      ∧ PcLegal (s.pc.toNat + (if s.key = some ((s.reg 3#4).setWidth 4) then 4 else 2))
      ∧ PcLegal (s.pc.toNat + (if s.key = some ((s.reg 0#4).setWidth 4) then 2 else 4)) := by decide
theorem witness_WaitForKeyTakesKeyOrStays :
    { late with key := some 15#4 }.key = some 15#4 ∧ PcLegal (late.pc.toNat + 2) ∧ last.key = none
      ∧ PcLegal last.pc.toNat := by decide
theorem witness_WaitingForKeyOnlyCountsDown :
    let s := { last.withFetchWord 16 0xF40A with dt := 2#8 }
    s.err = none ∧ s.key = none ∧ PcLegal s.pc.toNat ∧ decodeWord (fetchWord s) = .ok (.ldKey 4#4) := by decide
theorem witness_LoadProgramWritesItsBytesOnly :
    (List.replicate 3584 1#8).length ≤ 3584 ∧ 3584 < (List.replicate 3585 1#8).length
      ∧ ([1#8, 2#8][1]? = some 2#8) ∧ ([] : List Byte).length ≤ 3584 := by
  refine ⟨?_, ?_, rfl, by decide⟩
  · rw [List.length_replicate]
  · rw [List.length_replicate]; decide
/-- The self-jump of 95_test_vectors.md (program `12 00` at 0x200), one at the last legal address, and a halted core. -/
theorem witness_EndedProgramIdlesAndHaltedCoreNeverEnds :
    (State.reset.withFetchWord 16 0x1200).EndedAt 0x200
      ∧ (({ State.reset with pc := 4094#16 } : State).withFetchWord 16 0x1FFE).EndedAt 4094
      ∧ ({ State.reset with err := some ⟨.pcRange, 4096⟩ } : State).Halted :=
  ⟨⟨by decide, by decide, by decide, by decide⟩, ⟨by decide, by decide, by decide, by decide⟩, by decide⟩

/-! ## The end of a program (70_reset_and_hazards.md R207; log 14) -/

/-- A self-jump that no program has reached yet ends it one cycle later: `1204` at 0x200, `1204` at 0x204. -/
theorem test_program_ends_at_the_self_jump :
    EndsWithin 0x204 1 (bytesAt 0x200 [0x12#8, 0x04#8, 0#8, 0#8, 0x12#8, 0x04#8] State.reset) :=
  .inr ⟨_, rfl, ⟨by decide, by decide, by decide, by decide⟩⟩
/-- A jump to elsewhere is no end, nor is a self-jump in a halted core. -/
theorem test_not_ended :
    ¬ (State.reset.withFetchWord 16 0x1202).EndedAt 0x200
      ∧ ¬ ({ State.reset.withFetchWord 16 0x1200 with err := some ⟨.pcRange, 1⟩ } : State).EndedAt 0x200 :=
  ⟨fun h => absurd h.jumps_to_itself (by decide), fun h => absurd h.running (by decide)⟩

end Sys2Proof.Tests
end

section
/-! Proofs about STEP and dispatch (40_step_and_dispatch.md). -/

namespace Sys2Proof.Machine

/-- The result of a STEP that left a fatal in ERR (R89). -/
theorem stepResult_of_halted {s : State} {f : Fatal} (h : s.err = some f) : stepResult s = .fatal f := by
  simp [stepResult, h]

/-- Settles O7: STEP tests ERR before anything else and answers the state it was given, whose latched fatal is then
the one returned. -/
theorem haltedStepChangesNothing : Obligations.HaltedStepChangesNothing :=
  fun _ _ h => ⟨stepTransaction_of_halted h, stepResult_of_halted h⟩

end Sys2Proof.Machine
end

section
/-! Frame rules: what the register and `pc` updates keep of `KeepsAllBut` and `RegsKeptBut`. -/

namespace Sys2Proof.Claims
open Sys2Proof.Machine

variable {ps : List Part} {s t : State}

theorem Same.refl (p : Part) (s : State) : Same p s s := by
  cases p with
  | stack => exact ⟨rfl, rfl⟩
  | config => exact ⟨rfl, rfl, rfl⟩
  | regs | mem => exact fun _ => rfl
  | fb => exact fun _ _ => rfl
  | _ => rfl

theorem KeepsAllBut.refl (ps : List Part) (s : State) : KeepsAllBut ps s s := fun p _ => Same.refl p s

/-- A register write touches the part `regs` alone. -/
theorem KeepsAllBut.setReg (h : KeepsAllBut ps s t) (hr : Part.regs ∈ ps) (x : RegNum) (b : Byte) :
    KeepsAllBut ps s (t.setReg x b) := by
  intro p hp
  cases p with
  | regs => exact absurd hr hp
  | _ => exact h _ hp

/-- The `pc` a commit writes touches the part `pc` alone. -/
theorem KeepsAllBut.withPc (h : KeepsAllBut ps s t) (hpc : Part.pc ∈ ps) (a : Word) :
    KeepsAllBut ps s { t with pc := a } := by
  intro p hp
  cases p with
  | pc => exact absurd hpc hp
  | _ => exact h _ hp

theorem regsKeptBut_setReg (s : State) (x : RegNum) (b : Byte) : RegsKeptBut [x] s (s.setReg x b) :=
  fun r hr => reg_setReg_other s x r b (by simpa using hr)

end Sys2Proof.Claims
end

section
/-! Proofs about the immediate forms of the register file and ALU (42_alu.md). -/

namespace Sys2Proof.Machine
open Sys2Proof.Claims

/-! ## The words 6xnn and 7xnn -/

theorem decodeWord_ldImm (x : RegNum) (nn : Byte) :
    decodeWord (0x6000#16 ||| placeX x ||| placeNN nn) = .ok (.ldImm x nn) := by
  simp [decodeWord]

theorem decodeWord_addImm (x : RegNum) (nn : Byte) :
    decodeWord (0x7000#16 ||| placeX x ||| placeNN nn) = .ok (.addImm x nn) := by
  simp [decodeWord]

/-! ## One register written, then the next address -/

/-- What every instruction does whose one effect is `V[x] <- b`: where the next address is legal, it completes. -/
theorem commit_setReg_loadsOnly {s : State} (h : PcLegal (s.pc.toNat + 2)) (x : RegNum) (b : Byte) :
    ∃ t, commit s (s.setReg x b) (nextPc s) = .next t ∧ LoadsOnly x b s t := by
  refine ⟨_, commit_of_legal s (s.setReg x b) h, ?result, ?regs, ?frame, ?pc⟩
  case result => exact reg_setReg_same s x b
  case regs => exact regsKeptBut_setReg s x b
  case frame => exact ((KeepsAllBut.refl _ s).setReg (by decide) x b).withPc (by decide) _
  case pc => exact toNat_of_legal h

theorem exec_ldImm (x : RegNum) (nn : Byte) (s : State) :
    exec (.ldImm x nn) s = commit s (s.setReg x nn) (nextPc s) := rfl

theorem exec_addImm (x : RegNum) (nn : Byte) (s : State) :
    exec (.addImm x nn) s = commit s (s.setReg x (s.reg x + nn)) (nextPc s) := rfl

/-- The machine's addition of two bytes is the sum modulo 256. -/
theorem ofNat_add_mod_256 (a b : Byte) : BitVec.ofNat 8 ((a.toNat + b.toNat) % 256) = a + b := by
  apply BitVec.eq_of_toNat_eq
  simp

/-- Settles O32: ADD Vx, nn is one register write, of the sum that `BitVec` addition reduces modulo 256; VF is among
the registers such a write keeps. -/
theorem addImmediateWrapsWithoutFlag : Obligations.AddImmediateWrapsWithoutFlag := by
  intro x nn s h
  rw [exec_addImm, ofNat_add_mod_256]
  exact ⟨decodeWord_addImm x nn, commit_setReg_loadsOnly h x (s.reg x + nn)⟩

/-- Settles O31: LD Vx, nn is one register write, of the immediate. -/
theorem loadImmediateWritesVx : Obligations.LoadImmediateWritesVx := by
  intro x nn s h
  rw [exec_ldImm]
  exact ⟨decodeWord_ldImm x nn, commit_setReg_loadsOnly h x nn⟩

end Sys2Proof.Machine
end

section
/-! Proofs about the index register (43_index_and_memory.md). -/

namespace Sys2Proof.Claims
open Sys2Proof.Machine

/-- A write of `I` touches the part `index` alone. -/
theorem KeepsAllBut.withIndex {ps : List Part} {s t : State} (h : KeepsAllBut ps s t) (hi : Part.index ∈ ps)
    (a : Word) : KeepsAllBut ps s { t with i := a } := by
  intro p hp
  cases p with
  | index => exact absurd hi hp
  | _ => exact h _ hp

end Sys2Proof.Claims

namespace Sys2Proof.Machine
open Sys2Proof.Claims

theorem decodeWord_ldI (nnn : Addr12) : decodeWord (0xA000#16 ||| placeNNN nnn) = .ok (.ldI nnn) := by
  simp [decodeWord]

theorem exec_ldI (nnn : Addr12) (s : State) :
    exec (.ldI nnn) s = commit s { s with i := indexOfImm nnn } (nextPc s) := rfl

/-- The immediate is zero-extended: bits 15:12 are 0. -/
@[simp] theorem toNat_indexOfImm (nnn : Addr12) : (indexOfImm nnn).toNat = nnn.toNat :=
  BitVec.toNat_setWidth_of_le (by decide)

/-- What every instruction does whose one effect is `I <- a`: where the next address is legal, it completes. -/
theorem commit_index {s : State} (h : PcLegal (s.pc.toNat + 2)) (a : Word) :
    ∃ t, commit s { s with i := a } (nextPc s) = .next t ∧ t.i = a
      ∧ KeepsAllBut [.index, .pc] s t ∧ t.pc.toNat = s.pc.toNat + 2 := by
  refine ⟨_, commit_of_legal s { s with i := a } h, rfl, ?frame, ?pc⟩
  case frame => exact ((KeepsAllBut.refl _ s).withIndex (by decide) a).withPc (by decide) _
  case pc => exact toNat_of_legal h

/-- Settles O39: LD I, nnn is one write of `I`, of the immediate that `indexOfImm` zero-extends. -/
theorem loadIndexWritesImmediate : Obligations.LoadIndexWritesImmediate := by
  intro nnn s h
  obtain ⟨t, hexec, hi, hframe, hpc⟩ := commit_index h (indexOfImm nnn)
  rw [exec_ldI]
  exact ⟨decodeWord_ldI nnn, t, hexec, by rw [hi, toNat_indexOfImm], hframe, hpc⟩

end Sys2Proof.Machine
end

section
/-! Proofs about the display (44_display.md). -/

namespace Sys2Proof.Claims
open Sys2Proof.Machine

/-- A new picture touches the part `fb` alone. -/
theorem KeepsAllBut.withFb {ps : List Part} {s t : State} (h : KeepsAllBut ps s t) (hfb : Part.fb ∈ ps)
    (fb : Framebuffer) : KeepsAllBut ps s { t with fb := fb } := by
  intro p hp
  cases p with
  | fb => exact absurd hfb hp
  | _ => exact h _ hp

end Sys2Proof.Claims

namespace Sys2Proof.Machine
open Sys2Proof.Claims

theorem decodeWord_cls : decodeWord 0x00E0#16 = .ok .cls := by decide

theorem exec_cls (s : State) :
    exec .cls s = commit s { s with fb := Vector.replicate 32 0#64 } (nextPc s) := rfl

/-- What every instruction does whose one effect is a new picture: where the next address is legal, it completes. -/
theorem commit_fb {s : State} (h : PcLegal (s.pc.toNat + 2)) (fb : Framebuffer) :
    ∃ t, commit s { s with fb := fb } (nextPc s) = .next t ∧ t.fb = fb
      ∧ KeepsAllBut [.fb, .pc] s t ∧ t.pc.toNat = s.pc.toNat + 2 := by
  refine ⟨_, commit_of_legal s { s with fb := fb } h, rfl, ?frame, ?pc⟩
  case frame => exact ((KeepsAllBut.refl _ s).withFb (by decide) fb).withPc (by decide) _
  case pc => exact toNat_of_legal h

/-- Settles O48: CLS is one write of the picture, the blank one whatever the old picture was; VF is among the registers
such a write keeps. -/
theorem clearScreenZeroesEveryCell : Obligations.ClearScreenZeroesEveryCell := by
  intro s h
  obtain ⟨t, hexec, hfb, hframe, hpc⟩ := commit_fb h (Vector.replicate 32 0#64)
  rw [exec_cls]
  exact ⟨decodeWord_cls, t, hexec, fun r c _ _ => by rw [hfb, pixel_blank], hframe, hpc⟩

end Sys2Proof.Machine
end

section
/-! Proofs about the keypad instructions (45_keypad_and_timers.md). -/

namespace Sys2Proof.Claims
open Sys2Proof.Machine

/-- A write of the key latch touches the part `key` alone. -/
theorem KeepsAllBut.withKey {ps : List Part} {s t : State} (h : KeepsAllBut ps s t) (hk : Part.key ∈ ps)
    (k : Option Key) : KeepsAllBut ps s { t with key := k } := by
  intro p hp
  cases p with
  | key => exact absurd hk hp
  | _ => exact h _ hp

end Sys2Proof.Claims

namespace Sys2Proof.Machine
open Sys2Proof.Claims

theorem decodeWord_ldKey (x : RegNum) : decodeWord (0xF00A#16 ||| placeX x) = .ok (.ldKey x) := by
  simp [decodeWord, decodeGroupF]

theorem exec_ldKey (x : RegNum) (s : State) : exec (.ldKey x) s = execLdKey x s := rfl

/-- A commit of no effect at the state's own `pc` changes nothing. -/
theorem commit_self {s : State} (h : PcLegal s.pc.toNat) : commit s s s.pc.toNat = .next s := by
  rw [commit_of_legal s s h, BitVec.ofNat_toNat, BitVec.setWidth_eq]

/-- A register write that consumes the key latch completes where the next address is legal. -/
theorem commit_setReg_consumesKey {s : State} (h : PcLegal (s.pc.toNat + 2)) (x : RegNum) (b : Byte) :
    ∃ t, commit s { s.setReg x b with key := none } (nextPc s) = .next t ∧ t.reg x = b ∧ t.key = none
      ∧ RegsKeptBut [x] s t ∧ KeepsAllBut [.regs, .key, .pc] s t ∧ t.pc.toNat = s.pc.toNat + 2 := by
  refine ⟨_, commit_of_legal s { s.setReg x b with key := none } h, ?result, rfl, ?regs, ?frame, ?pc⟩
  case result => exact reg_setReg_same s x b
  case regs => exact regsKeptBut_setReg s x b
  case frame =>
    exact (((KeepsAllBut.refl _ s).setReg (by decide) x b).withKey (by decide) none).withPc (by decide) _
  case pc => exact toNat_of_legal h

/-- Settles O53: with a key, LD Vx, K is one register write, of the zero-extended key, that consumes the latch; with
none it is the commit of no effect at the same `pc`. -/
theorem waitForKeyTakesKeyOrStays : Obligations.WaitForKeyTakesKeyOrStays := by
  intro x s
  rw [exec_ldKey]
  refine ⟨decodeWord_ldKey x, ?taken, ?waiting⟩
  case taken =>
    intro k hkey hpc
    obtain ⟨t, hcommit, hreg, hrest⟩ := commit_setReg_consumesKey hpc x (k.setWidth 8)
    have hvalue : (t.reg x).toNat = k.toNat := by rw [hreg, BitVec.toNat_setWidth_of_le (by decide)]
    exact ⟨t, (execLdKey_of_key hkey).trans hcommit, hvalue, hrest⟩
  case waiting =>
    intro hkey hpc
    rw [execLdKey_of_none hkey, commit_self hpc]

end Sys2Proof.Machine
end

section
/-! Proofs about the fatal conditions (60_exceptions.md). -/

namespace Sys2Proof.Machine

theorem exec_ret (s : State) : exec .ret s = execRet s := rfl

/-- Settles O23: on the empty stack RET is nothing but the raise of the `Pop()` it begins with, and in a running core a
raise writes ERR alone, so SP stays. -/
theorem retOnEmptyStackIsFatal : Obligations.RetOnEmptyStackIsFatal := by
  intro s hrunning hempty
  have hraise : exec .ret s = .next { s with err := some { code := .stackUnderflow, info := s.pc.toNat } } := by
    rw [exec_ret, execRet_of_empty hempty, raiseFatal_of_running hrunning]
  exact ⟨_, s.pc.toNat, hraise, rfl, rfl⟩

end Sys2Proof.Machine
end

section
/-! Proofs about RESET and the quirk straps (70_reset_and_hazards.md). -/

namespace Sys2Proof.Machine

/-! ## What RESET leaves (R200) -/

section Reset
variable (q : Quirks) (font label : Vector Byte 80) (s : State)

theorem transact_reset : transact (.reset q font label) s = .next (reset q font label s) := rfl

@[simp] theorem reset_q : (reset q font label s).q = q := rfl
@[simp] theorem reset_mem : (reset q font label s).mem = Memory.place [] 0 (label.toList ++ font.toList) := rfl
@[simp] theorem reset_stk : (reset q font label s).stk = List.replicate s.stk.length 0#16 := rfl
@[simp] theorem reset_fb : (reset q font label s).fb = Vector.replicate 32 0#64 := rfl

@[simp] theorem reg_reset (r : RegNum) : (reset q font label s).reg r = 0#8 := Vector.getElem_replicate _

theorem eq_zero_of_mem_reset_stk {a : Word} (h : a ∈ (reset q font label s).stk) : a = 0#16 := by
  rw [reset_stk] at h
  exact List.eq_of_mem_replicate h

theorem pixel_reset (r c : Nat) : pixel (reset q font label s).fb r c = false := by
  rw [reset_fb, pixel_blank]

/-- RESET writes LABEL from address 0 up. -/
theorem read_reset_label {a : Nat} (h : a < 80) : (reset q font label s).mem.read a = label[a] := by
  have hread := Memory.read_place_inside [] 0 (label.toList ++ font.toList) (k := a) (by simp; omega)
  rw [Nat.zero_add] at hread
  rw [reset_mem, hread, List.getElem_append_left (by simpa using h), Vector.getElem_toList]

/-- RESET writes FONT after the 80 bytes of LABEL. -/
theorem read_reset_font {a : Nat} (h : a < 80) : (reset q font label s).mem.read (80 + a) = font[a] := by
  have hread := Memory.read_place_inside [] 0 (label.toList ++ font.toList) (k := 80 + a) (by simp; omega)
  rw [Nat.zero_add] at hread
  rw [reset_mem, hread, List.getElem_append_right (by simp)]
  simp

/-- RESET writes nothing above FONT, where an unlisted byte reads as 0. -/
theorem read_reset_above {a : Nat} (h : 160 ≤ a) : (reset q font label s).mem.read a = 0#8 := by
  rw [reset_mem, Memory.read_place_outside _ _ _ (.inr (by simpa using h))]
  exact unlistedByte_of_ge h

end Reset

/-- Settles O59: RESET answers a state written out field by field; its memory is LABEL and FONT placed from 0 up over
cells that read as zero from 160 on. -/
theorem resetSetsEveryPieceOfState : Obligations.ResetSetsEveryPieceOfState := by
  intro q font label s
  refine ⟨reset q font label s, transact_reset q font label s, reg_reset q font label s, rfl, rfl, ?stk, rfl, rfl, ?fb,
    rfl, rfl, rfl, rfl, ?labelAndFont, ?zero, reset_q q font label s⟩
  case stk => exact fun _ => eq_zero_of_mem_reset_stk q font label s
  case fb => exact pixel_reset q font label s
  case labelAndFont => exact fun _ h => ⟨read_reset_label q font label s h, read_reset_font q font label s h⟩
  case zero => exact fun _ h _ => read_reset_above q font label s h

/-! ## The straps outside RESET (R201) -/

theorem loadProgram_q (bytes : List Byte) (s : State) : (loadProgram bytes s).2.q = s.q := by
  unfold loadProgram
  split <;> rfl

/-- Neither a fatal nor a commit writes the straps. -/
theorem EndsIn.q {s t : State} (h : EndsIn s t) : t.q = s.q := by
  obtain ⟨f, rfl⟩ | ⟨s', p, -, hkept, rfl⟩ := h
  · rfl
  · exact hkept.q

theorem stepTransaction_q {s t : State} (h : stepTransaction s = .next t) : t.q = s.q := by
  obtain ⟨-, rfl⟩ | ⟨-, hends⟩ := stepTransaction_next h
  · rfl
  · exact hends.q

/-- Settles O16: RESET's part is read off the state it leaves; STEP keeps the straps since every way it can end does
(`EndsIn`), and no other transaction writes them. -/
theorem strapsSampledByResetOnly : Obligations.StrapsSampledByResetOnly := by
  refine ⟨?reset, ?others⟩
  case reset =>
    intro q font label s t h
    rw [transact_reset] at h
    cases h
    exact ⟨reset_q q font label s, fun _ ha _ => read_reset_above q font label s (by omega)⟩
  case others =>
    intro tr s t hnot h
    cases tr with
    | reset q font label => exact absurd rfl (hnot q font label)
    | step => exact stepTransaction_q h
    | loadProgram bytes => cases h; exact loadProgram_q bytes s
    | tick | feedKey | fbView | status => cases h; rfl

end Sys2Proof.Machine
end

section
/-! Proofs about the encoding (30_encoding.md): the decoder against the encoder and against the opcode map. -/

namespace Sys2Proof
open Sys2Proof.Claims

/-! ## Encode, then decode -/

/-- Only SYS needs its side condition: the words of CLS and RET are its neighbours in group 0 (R65, R70). -/
theorem decodeGroup0_placeNNN {nnn : Addr12} (h : sysAllowed nnn) : decodeGroup0 (placeNNN nnn) = .sys nnn := by
  have hcls : placeNNN nnn ≠ 0x00E0#16 := fun e => h.1 (by simpa using congrArg nnnOf e)
  have hret : placeNNN nnn ≠ 0x00EE#16 := fun e => h.2 (by simpa using congrArg nnnOf e)
  simp [decodeGroup0, hcls, hret]

theorem decodeWord_encode {i : Instr} (h : i.wellFormed = true) : decodeWord (encode i) = .ok i := by
  cases i with
  | sys nnn => simp [encode, decodeWord, decodeGroup0_placeNNN (of_decide_eq_true h)]
  | cls | ret => decide
  | _ => simp [encode, decodeWord, decodeGroup8, decodeGroupE, decodeGroupF]

/-- Settles O1: the bytes of a word decode as the word does, and the word of a well-formed instruction decodes to it. -/
theorem decodeAfterEncodeReturnsInstruction : Obligations.DecodeAfterEncodeReturnsInstruction := by
  intro i rest h
  rw [encodeBytes, decodeBytes_bytesOfWord, decodeWord_encode h]
  rfl

/-- Settles O4, by running the decoder. -/
theorem writtenOutWordsDecode : Obligations.WrittenOutWordsDecode := by
  unfold Obligations.WrittenOutWordsDecode
  decide

/-! ## What a masked word says of the fields -/

/-- The primary opcode at its place. -/
def placeOp (o : Nibble) : Word := o.setWidth 16 <<< 12

@[simp] theorem opOf_placeOp : ∀ o : Nibble, opOf (placeOp o) = o := by decide
@[simp] theorem nOf_placeOp : ∀ o : Nibble, nOf (placeOp o) = 0#4 := by decide
@[simp] theorem nnOf_placeOp : ∀ o : Nibble, nnOf (placeOp o) = 0#8 := by decide

theorem and_F000 (w : Word) : w &&& 0xF000#16 = placeOp (opOf w) := by
  ext k hk
  interval_cases k <;> simp [placeOp, opOf]

theorem and_F00F (w : Word) : w &&& 0xF00F#16 = placeOp (opOf w) ||| placeN (nOf w) := by
  ext k hk
  interval_cases k <;> simp [placeOp, opOf, placeN, nOf]

theorem and_F0FF (w : Word) : w &&& 0xF0FF#16 = placeOp (opOf w) ||| placeNN (nnOf w) := by
  ext k hk
  interval_cases k <;> simp [placeOp, opOf, placeNN, nnOf]

theorem and_FFFF (w : Word) : w &&& 0xFFFF#16 = w := BitVec.and_allOnes

theorem and_F000_eq_iff {w c : Word} (hc : c &&& 0xF000#16 = c) : w &&& 0xF000#16 = c ↔ opOf w = opOf c := by
  constructor
  · rintro rfl
    simp [and_F000]
  · intro ho
    rw [and_F000, ho, ← and_F000, hc]

theorem and_F00F_eq_iff {w c : Word} (hc : c &&& 0xF00F#16 = c) :
    w &&& 0xF00F#16 = c ↔ opOf w = opOf c ∧ nOf w = nOf c := by
  constructor
  · rintro rfl
    simp [and_F00F]
  · rintro ⟨ho, hn⟩
    rw [and_F00F, ho, hn, ← and_F00F, hc]

theorem and_F0FF_eq_iff {w c : Word} (hc : c &&& 0xF0FF#16 = c) :
    w &&& 0xF0FF#16 = c ↔ opOf w = opOf c ∧ nnOf w = nnOf c := by
  constructor
  · rintro rfl
    simp [and_F0FF]
  · rintro ⟨ho, hn⟩
    rw [and_F0FF, ho, hn, ← and_F0FF, hc]

/-! ## The secondary dispatches as rows of the map -/

theorem nibble_cases : ∀ o : Nibble, o = 0#4 ∨ o = 1#4 ∨ o = 2#4 ∨ o = 3#4 ∨ o = 4#4 ∨ o = 5#4 ∨ o = 6#4 ∨ o = 7#4
    ∨ o = 8#4 ∨ o = 9#4 ∨ o = 10#4 ∨ o = 11#4 ∨ o = 12#4 ∨ o = 13#4 ∨ o = 14#4 ∨ o = 15#4 := by decide

theorem decodeGroup8_eq_ok_iff (w : Word) (i : Instr) :
    decodeGroup8 w = .ok i ↔ ∃ r ∈ group8Rows, nOf w = nOf r.code ∧ r.build w = i := by
  simp only [group8Rows, decodeGroup8]
  split <;> simp_all [← BitVec.toNat_inj]

theorem decodeGroupE_eq_ok_iff (w : Word) (i : Instr) :
    decodeGroupE w = .ok i ↔ ∃ r ∈ groupEFRows, opOf r.code = 0xE#4 ∧ nnOf w = nnOf r.code ∧ r.build w = i := by
  simp only [groupEFRows, decodeGroupE]
  split <;> simp_all [← BitVec.toNat_inj]

theorem decodeGroupF_eq_ok_iff (w : Word) (i : Instr) :
    decodeGroupF w = .ok i ↔ ∃ r ∈ groupEFRows, opOf r.code = 0xF#4 ∧ nnOf w = nnOf r.code ∧ r.build w = i := by
  simp only [groupEFRows, decodeGroupF]
  split <;> simp_all [← BitVec.toNat_inj]

/-! ## The decoder as rows of the map -/

theorem opOf_mask : ∀ r ∈ opcodeMap, opOf r.mask = 0xF#4 := by decide

/-- Outside group 0 the rows of one primary opcode have one mask. -/
theorem mask_eq_of_op : ∀ r ∈ opcodeMap, ∀ r' ∈ opcodeMap, opOf r.code = opOf r'.code → opOf r.code ≠ 0#4 →
    r'.mask = r.mask := by decide

theorem opOf_of_selects {w : Word} {r : MapRow} (hr : r ∈ opcodeMap) (h : r.selects w) : opOf w = opOf r.code := by
  rw [← h, show opOf (w &&& r.mask) = opOf w &&& opOf r.mask by simp [opOf, BitVec.extractLsb'_and], opOf_mask r hr]
  exact BitVec.and_allOnes.symm

/-- Outside group 0 the decoder takes the row that selects the word. The primary opcode decides: under it the condition of
each row is false, or is the test that the decoder's own dispatch makes. -/
theorem decodeWord_eq_ok_iff_row {w : Word} (h0 : opOf w ≠ 0#4) (i : Instr) :
    decodeWord w = .ok i ↔ ∃ r ∈ opcodeMap, r.selects w ∧ r.build w = i := by
  have hcls : w ≠ 0x00E0#16 := by rintro rfl; exact h0 (by decide)
  have hret : w ≠ 0x00EE#16 := by rintro rfl; exact h0 (by decide)
  simp only [opcodeMap, wholeGroupRows, group8Rows, groupEFRows, MapRow.selects, decodeWord]
  rcases nibble_cases (opOf w) with h | h | h | h | h | h | h | h | h | h | h | h | h | h | h | h
  · exact absurd h h0
  all_goals simp [and_F000_eq_iff, and_F00F_eq_iff, and_F0FF_eq_iff, and_FFFF, hcls, hret, h,
    decodeGroup8_eq_ok_iff, decodeGroupE_eq_ok_iff, decodeGroupF_eq_ok_iff, group8Rows, groupEFRows]

/-- The largest mask among the rows that select a word of group 0 (R65). -/
theorem masks_le_iff_of_group0 {w : Word} (h : opOf w = 0#4) (m : Nat) :
    (∀ r ∈ opcodeMap, r.selects w → r.mask.toNat ≤ m)
      ↔ 0xF000 ≤ m ∧ (w = 0x00E0#16 → 0xFFFF ≤ m) ∧ (w = 0x00EE#16 → 0xFFFF ≤ m) := by
  simp only [opcodeMap, wholeGroupRows, group8Rows, groupEFRows, MapRow.selects]
  simp [and_F000_eq_iff, and_F00F_eq_iff, and_F0FF_eq_iff, and_FFFF, h]

/-- In group 0 the decoder takes the row of the whole word, if there is one, before SYS. -/
theorem decodeWord_eq_ok_iff_row_of_group0 {w : Word} (h : opOf w = 0#4) (i : Instr) :
    decodeWord w = .ok i ↔ ∃ r ∈ opcodeMap,
      r.selects w ∧ (∀ r' ∈ opcodeMap, r'.selects w → r'.mask.toNat ≤ r.mask.toNat) ∧ r.build w = i := by
  simp only [masks_le_iff_of_group0 h]
  simp only [opcodeMap, wholeGroupRows, group8Rows, groupEFRows, MapRow.selects, decodeWord, decodeGroup0]
  by_cases hcls : w = 0x00E0#16
  · subst hcls; simp
  · by_cases hret : w = 0x00EE#16
    · subst hret; simp
    · simp [and_F000_eq_iff, and_F00F_eq_iff, and_F0FF_eq_iff, and_FFFF, h, hcls, hret]

/-- Settles O3: in group 0 the two whole words have the larger mask; elsewhere the rows that can select a word have the
mask of its primary opcode, so the row that selects it is the largest. -/
theorem opcodeMapRowSelectsInstruction : Obligations.OpcodeMapRowSelectsInstruction := by
  intro w i
  by_cases h0 : opOf w = 0#4
  · exact decodeWord_eq_ok_iff_row_of_group0 h0 i
  rw [decodeWord_eq_ok_iff_row h0]
  constructor
  · rintro ⟨r, hr, hsel, hbuild⟩
    refine ⟨r, hr, hsel, fun r' hr' hsel' => ?_, hbuild⟩
    have hop : opOf w = opOf r.code := opOf_of_selects hr hsel
    rw [mask_eq_of_op r hr r' hr' (hop.symm.trans (opOf_of_selects hr' hsel')) (hop ▸ h0)]
  · rintro ⟨r, hr, hsel, -, hbuild⟩
    exact ⟨r, hr, hsel, hbuild⟩

/-! ## Decode, then encode -/

theorem word_of_F000_nnn {w c : Word} (h : w &&& 0xF000#16 = c) : c ||| placeNNN (nnnOf w) = w := by
  rw [← h, and_F000]; exact word_of_op_nnn w

/-- SYS has no fixed bit set. -/
theorem word_of_group0_nnn {w : Word} (h : w &&& 0xF000#16 = 0#16) : placeNNN (nnnOf w) = w := by
  rw [← BitVec.zero_or (x := placeNNN (nnnOf w))]; exact word_of_F000_nnn h

theorem word_of_F000_x_nn {w c : Word} (h : w &&& 0xF000#16 = c) : c ||| placeX (xOf w) ||| placeNN (nnOf w) = w := by
  rw [← h, and_F000]; exact word_of_op_x_nn w

theorem word_of_FFF0_n (w : Word) : w &&& 0xFFF0#16 ||| placeN (nOf w) = w := by
  ext k hk
  interval_cases k <;> simp [placeN, nOf]

/-- Without the ignored low nibble (R69). -/
theorem word_of_F000_x_y {w c : Word} (h : w &&& 0xF000#16 = c) :
    c ||| placeX (xOf w) ||| placeY (yOf w) = w &&& 0xFFF0#16 := by
  subst h
  ext k hk
  interval_cases k <;> simp [placeX, xOf, placeY, yOf]

theorem word_of_F00F_x_y {w c : Word} (h : w &&& 0xF00F#16 = c) : c ||| placeX (xOf w) ||| placeY (yOf w) = w := by
  subst h
  ext k hk
  interval_cases k <;> simp [placeX, xOf, placeY, yOf]

theorem word_of_F0FF_x {w c : Word} (h : w &&& 0xF0FF#16 = c) : c ||| placeX (xOf w) = w := by
  subst h
  ext k hk
  interval_cases k <;> simp [placeX, xOf]

/-- The fixed bits of a row and the fields it cuts from a word are the word. -/
theorem encode_build {w : Word} {r : MapRow} (hr : r ∈ opcodeMap) (h : r.selects w) :
    encode (r.build w) = if opOf w = 5#4 ∨ opOf w = 9#4 then w &&& 0xFFF0#16 else w := by
  rw [opOf_of_selects hr h]
  revert r
  simp only [opcodeMap, wholeGroupRows, group8Rows, groupEFRows, MapRow.selects]
  simp +contextual [encode, word_of_group0_nnn, word_of_F000_nnn, word_of_F000_x_nn, word_of_F000_x_y, word_of_FFF0_n,
    word_of_F00F_x_y, word_of_F0FF_x, and_FFFF]

theorem wellFormed_decodeGroup0 {w : Word} (h : opOf w = 0#4) : (decodeGroup0 w).wellFormed = true := by
  have hw : placeNNN (nnnOf w) = w := word_of_group0_nnn ((and_F000_eq_iff (by decide)).mpr (by simpa using h))
  unfold decodeGroup0
  split
  · rfl
  · split
    · rfl
    · next hcls hret =>
      refine decide_eq_true ⟨fun e => hcls ?_, fun e => hret ?_⟩
      · rw [← hw, e]; decide
      · rw [← hw, e]; decide

theorem wellFormed_build (w : Word) : ∀ r ∈ opcodeMap, opOf r.code ≠ 0#4 → (r.build w).wellFormed = true := by
  simp [opcodeMap, wholeGroupRows, group8Rows, groupEFRows, Instr.wellFormed]

theorem wellFormed_of_decodeWord {w : Word} {i : Instr} (h : decodeWord w = .ok i) : i.wellFormed = true := by
  by_cases h0 : opOf w = 0#4
  · have hd : decodeWord w = .ok (decodeGroup0 w) := by simp [decodeWord, h0]
    cases hd.symm.trans h
    exact wellFormed_decodeGroup0 h0
  · obtain ⟨r, hr, hsel, rfl⟩ := (decodeWord_eq_ok_iff_row h0 i).mp h
    exact wellFormed_build w r hr (opOf_of_selects hr hsel ▸ h0)

/-- Settles O2: the row that selects the word keeps all of it, in its fixed bits or in a field, but for the low nibble of
groups 5 and 9. -/
theorem encodeAfterDecodeReturnsWord : Obligations.EncodeAfterDecodeReturnsWord := by
  intro w i h
  refine ⟨wellFormed_of_decodeWord h, ?_⟩
  obtain ⟨r, hr, hsel, -, rfl⟩ := (opcodeMapRowSelectsInstruction w i).mp h
  exact encode_build hr hsel

/-! ## The words that are no instruction (R71 to R73) -/

/-- The lists of groups 8, E and F. -/
abbrev UnknownWord (w : Word) : Prop :=
  (opOf w = 0x8#4 ∧ nOf w ∈ [0x8#4, 0x9#4, 0xA#4, 0xB#4, 0xC#4, 0xD#4, 0xF#4])
    ∨ (opOf w = 0xE#4 ∧ nnOf w ∉ [0x9E#8, 0xA1#8])
    ∨ (opOf w = 0xF#4 ∧ nnOf w ∉ [0x07#8, 0x0A#8, 0x15#8, 0x18#8, 0x1E#8, 0x29#8, 0x33#8, 0x55#8, 0x65#8])

theorem isOk_decodeGroup8_iff (w : Word) :
    (decodeGroup8 w).isOk = true ↔ nOf w ∉ [0x8#4, 0x9#4, 0xA#4, 0xB#4, 0xC#4, 0xD#4, 0xF#4] := by
  unfold decodeGroup8
  rcases nibble_cases (nOf w) with h | h | h | h | h | h | h | h | h | h | h | h | h | h | h | h <;>
    simp [h, Except.isOk, Except.toBool]

theorem isOk_decodeGroupE_iff (w : Word) : (decodeGroupE w).isOk = true ↔ nnOf w ∈ [0x9E#8, 0xA1#8] := by
  unfold decodeGroupE
  split <;> simp_all [← BitVec.toNat_inj, Except.isOk, Except.toBool]

theorem isOk_decodeGroupF_iff (w : Word) :
    (decodeGroupF w).isOk = true
      ↔ nnOf w ∈ [0x07#8, 0x0A#8, 0x15#8, 0x18#8, 0x1E#8, 0x29#8, 0x33#8, 0x55#8, 0x65#8] := by
  unfold decodeGroupF
  split <;> simp_all [← BitVec.toNat_inj, Except.isOk, Except.toBool]

theorem isOk_ok (i : Instr) : (.ok i : Except DecodeError Instr).isOk = true := rfl

/-- A word is an instruction exactly when no list names it: only three primary opcodes can fail. -/
theorem isOk_decodeWord_iff (w : Word) : (decodeWord w).isOk = true ↔ ¬ UnknownWord w := by
  unfold decodeWord
  rcases nibble_cases (opOf w) with h | h | h | h | h | h | h | h | h | h | h | h | h | h | h | h <;>
    simp [UnknownWord, h, isOk_ok, isOk_decodeGroup8_iff, isOk_decodeGroupE_iff, isOk_decodeGroupF_iff, -List.mem_cons]

end Sys2Proof
end

section
/-! What an instruction commits: `exec` as its own fault, or the commit of one effect at the `pc_next` of
40_step_and_dispatch.md R86. Frame rules and instruction proofs below read the effect and do not unfold `exec`. -/

namespace Sys2Proof.Machine
open Sys2Proof.Claims

/-! ## The effect of each instruction -/

/-- RET and CALL have a meaning only where SP is at most STACK_CAPACITY (log 10). -/
def StackFits : Instr → State → Prop
  | .ret, s | .call _, s => s.sp ≤ s.stk.length
  | _, _ => True

theorem stackFits_of_sp_le {s : State} (h : s.sp ≤ s.stk.length) (i : Instr) : StackFits i s := by
  cases i with
  | ret | call => exact h
  | _ => trivial

/-- The state an instruction that raises no fault of its own commits, before `pc` is written. -/
def effect (i : Instr) (s : State) : State :=
  match i with
  | .sys nnn => s.warning .group0Unknown (nnn.setWidth 16)
  | .cls => { s with fb := Vector.replicate 32 0#64 }
  | .ret => { s with sp := s.sp - 1 }
  | .call _ => { s with stk := s.stk.set s.sp s.pc, sp := s.sp + 1 }
  | .jp _ | .jpOffset _ | .seImm _ _ | .sneImm _ _ | .seReg _ _ | .sneReg _ _ => s
  | .ldImm x nn => s.setReg x nn
  | .addImm x nn => s.setReg x (s.reg x + nn)
  | .ldReg x y => s.setReg x (s.reg y)
  | .or x y => (s.setReg x (s.reg x ||| s.reg y)).logicFlag
  | .and x y => (s.setReg x (s.reg x &&& s.reg y)).logicFlag
  | .xor x y => (s.setReg x (s.reg x ^^^ s.reg y)).logicFlag
  | .addReg x y => s.setRegThenFlag x (s.reg x + s.reg y) (carry (s.reg x) (s.reg y))
  | .sub x y => s.setRegThenFlag x (s.reg x - s.reg y) (noBorrow (s.reg x) (s.reg y))
  | .shr x y => s.setRegThenFlag x (shiftOperand s x y >>> 1) (bitOutRight (shiftOperand s x y))
  | .subn x y => s.setRegThenFlag x (s.reg y - s.reg x) (noBorrow (s.reg y) (s.reg x))
  | .shl x y => s.setRegThenFlag x (shiftOperand s x y <<< 1) (bitOutLeft (shiftOperand s x y))
  | .rnd x nn => { s.setReg x (Config.rndDraw s.draws &&& nn) with draws := s.draws + 1 }
  | .ldI nnn => { s with i := indexOfImm nnn }
  | .addI x => State.indexFlag { s with i := s.i + (s.reg x).setWidth 16 }
  | .ldFont x => { s with i := glyphAddr (s.reg x) }
  | .drw x y n =>
    match drawSprite s n (s.reg x) (s.reg y) with
    | .ok cv => State.setFlag { s with fb := cv.fb } cv.hit
    | .error _ => s
  | .skp _ | .sknp _ => { s with key := none }
  | .ldKey x =>
    match s.key with
    | some k => { s.setReg x (k.setWidth 8) with key := none }
    | none => s
  | .ldFromDt x => s.setReg x s.dt
  | .ldDt x => { s with dt := s.reg x }
  | .ldSt x => { s with st := s.reg x }
  | .ldBcd x => { s with mem := s.mem.place (dataAddr s) (bcdDigits (s.reg x)) }
  | .storeRegs x => { s with mem := s.mem.place (dataAddr s) (regsUpTo s x), i := indexAfterBlock s x }
  | .loadRegs x =>
    { s with
      v := setRegsFrom s.v 0 ((List.range (x.toNat + 1)).map fun j => s.mem.read (dataAddr s + j))
      i := indexAfterBlock s x }

/-! ## The spec's tables in the model's terms -/

/-- The rows of R153 are those the sprite engine processes. -/
theorem spriteRows_eq (x y : RegNum) (n : Nibble) (s : State) :
    spriteRows x y n s = processedRows (drawCol s x) (drawRow s y) n.toNat := by
  have hrow : ¬ 31 < drawRow s y := by have := originRow_lt (s.reg y); unfold drawRow; omega
  simp [rowsFrom, processedRows, hrow, show originRow (s.reg y) = drawRow s y from rfl,
    show originCol (s.reg x) = drawCol s x from rfl]

theorem skipPc_eq (s : State) (taken : Bool) : skipPc s taken = s.pc.toNat + (if taken then 4 else 2) := by
  cases taken <;> rfl

theorem keyMatches_eq (s : State) (x : RegNum) : keyMatches s x = (s.key == some ((s.reg x).setWidth 4)) := by
  rw [keyMatches, keyOperand, BitVec.setWidth_eq_extractLsb' (by decide)]

theorem jumpOffsetTarget_eq (nnn : Addr12) (s : State) : jumpOffsetTarget s nnn = pcNextOf (.jpOffset nnn) s := by
  cases hq : s.q.jumpOffsetRegister with
  | v0 => simp only [jumpOffsetTarget, jumpOffsetReg, pcNextOf, hq]
  | vx => simp only [jumpOffsetTarget, jumpOffsetReg, pcNextOf, hq, topDigit]

/-! ## How `exec` ends -/

/-- An instruction's own fault is taken and nothing else happens (40_step_and_dispatch.md R91). -/
theorem exec_of_ownFault {i : Instr} {s : State} {f : Fatal} (h : ownFault i s = some f) :
    exec i s = raiseFatal s f := by
  cases i with
  | ret =>
    obtain ⟨hsp, rfl⟩ : s.sp = 0 ∧ _ := by simpa [ownFault] using h
    exact execRet_of_empty hsp
  | call nnn =>
    obtain ⟨hsp, rfl⟩ : s.sp = s.stk.length ∧ _ := by simpa [ownFault] using h
    exact execCall_of_full hsp
  | drw x y n =>
    obtain ⟨⟨hpos, hrange⟩, rfl⟩ : (_ ∧ _) ∧ _ := by simpa [ownFault, ← spriteRows_eq] using h
    exact execDrw_outside hpos hrange
  | ldBcd x =>
    obtain ⟨hrange, rfl⟩ : 4095 < s.i.toNat + 2 ∧ _ := by simpa [ownFault] using h
    exact execLdBcd_outside hrange
  | storeRegs x =>
    obtain ⟨hrange, rfl⟩ : 4095 < s.i.toNat + x.toNat ∧ _ := by simpa [ownFault] using h
    exact execStoreRegs_outside hrange
  | loadRegs x =>
    obtain ⟨hrange, rfl⟩ : 4095 < s.i.toNat + x.toNat ∧ _ := by simpa [ownFault] using h
    exact execLoadRegs_outside hrange
  | _ => cases h

/-- An instruction with no fault of its own commits its effect at its `pc_next`. -/
theorem exec_of_no_ownFault {i : Instr} {s : State} (hs : StackFits i s) (h : ownFault i s = none) :
    exec i s = commit s (effect i s) (pcNextOf i s) := by
  cases i with
  | ret =>
    have hsp : s.sp ≠ 0 := by simpa [ownFault] using h
    exact execRet_of_entry (Nat.pos_of_ne_zero hsp) hs
  | call nnn =>
    have hsp : s.sp ≠ s.stk.length := by simpa [ownFault] using h
    exact execCall_of_room (Nat.lt_of_le_of_ne hs hsp)
  | drw x y n =>
    have hrows : spriteRows x y n s = 0 ∨ s.i.toNat + spriteRows x y n s ≤ 4096 := by
      simp [ownFault, ← spriteRows_eq] at h
      omega
    obtain ⟨cv, hdraw, -, -⟩ := drawRows_ok s.mem s.i.toNat _ (originRow (s.reg y)) (originCol_lt (s.reg x)) n.toNat 0
      { fb := s.fb, hit := false } hrows
    simp [exec, execDrw, effect, drawSprite, dataAddr, hdraw, nextPc, pcNextOf]
  | ldBcd x => exact execLdBcd_inside (by simp [ownFault] at h; omega)
  | storeRegs x => exact execStoreRegs_inside (by simp [ownFault] at h; omega)
  | loadRegs x => exact execLoadRegs_inside (by simp [ownFault] at h; omega)
  | seImm | sneImm | seReg | sneReg =>
    simp [exec, execSeImm, execSneImm, execSeReg, execSneReg, skipPc_eq, effect, pcNextOf]
  | skp | sknp => simp [exec, execSkp, execSknp, skipPc_eq, keyMatches_eq, effect, pcNextOf]
  | jpOffset nnn => rw [← jumpOffsetTarget_eq]; rfl
  | ldKey x =>
    cases hkey : s.key with
    | none => simp [exec, execLdKey, effect, pcNextOf, hkey]
    | some k => simp [exec, execLdKey, effect, pcNextOf, nextPc, hkey]
  | _ => rfl

/-- RET and CALL above STACK_CAPACITY are refused (93_implementation_defined.md U13). -/
theorem exec_of_stack_beyond {i : Instr} {s : State} (h : ¬ StackFits i s) :
    exec i s = .refused .stackPointerBeyondCapacity := by
  cases i with
  | ret => simp [exec, execRet, pop_of_beyond (Nat.not_le.mp h)]
  | call nnn => simp [exec, execCall, push_of_beyond (Nat.not_le.mp h)]
  | _ => exact absurd trivial h

end Sys2Proof.Machine
end

section
/-! Frame rules of the remaining parts of the state, and the frames of every instruction (10_state.md, 20_memory.md). -/

namespace Sys2Proof.Claims
open Sys2Proof.Machine

variable {ps qs : List Part} {s t : State}

theorem KeepsAllBut.mono (h : KeepsAllBut ps s t) (hsub : ps ⊆ qs) : KeepsAllBut qs s t :=
  fun p hp => h p fun hin => hp (hsub hin)

theorem KeepsAllBut.withErr (h : KeepsAllBut ps s t) (he : Part.err ∈ ps) (e : Option Fatal) :
    KeepsAllBut ps s { t with err := e } := by
  intro p hp
  cases p with
  | err => exact absurd he hp
  | _ => exact h _ hp

theorem KeepsAllBut.withWarn (h : KeepsAllBut ps s t) (hw : Part.warn ∈ ps) (w : Option Warning) :
    KeepsAllBut ps s { t with warn := w } := by
  intro p hp
  cases p with
  | warn => exact absurd hw hp
  | _ => exact h _ hp

theorem KeepsAllBut.withDt (h : KeepsAllBut ps s t) (hd : Part.dt ∈ ps) (b : Byte) :
    KeepsAllBut ps s { t with dt := b } := by
  intro p hp
  cases p with
  | dt => exact absurd hd hp
  | _ => exact h _ hp

theorem KeepsAllBut.withSt (h : KeepsAllBut ps s t) (hs : Part.st ∈ ps) (b : Byte) :
    KeepsAllBut ps s { t with st := b } := by
  intro p hp
  cases p with
  | st => exact absurd hs hp
  | _ => exact h _ hp

theorem KeepsAllBut.withDraws (h : KeepsAllBut ps s t) (hd : Part.draws ∈ ps) (k : Nat) :
    KeepsAllBut ps s { t with draws := k } := by
  intro p hp
  cases p with
  | draws => exact absurd hd hp
  | _ => exact h _ hp

theorem KeepsAllBut.withMem (h : KeepsAllBut ps s t) (hm : Part.mem ∈ ps) (m : Memory) :
    KeepsAllBut ps s { t with mem := m } := by
  intro p hp
  cases p with
  | mem => exact absurd hm hp
  | _ => exact h _ hp

theorem KeepsAllBut.withRegs (h : KeepsAllBut ps s t) (hr : Part.regs ∈ ps) (v : Vector Byte 16) :
    KeepsAllBut ps s { t with v := v } := by
  intro p hp
  cases p with
  | regs => exact absurd hr hp
  | _ => exact h _ hp

/-- A stack of the same capacity touches the part `stack` alone: the capacity belongs to `config`. -/
theorem KeepsAllBut.withStack (h : KeepsAllBut ps s t) (hs : Part.stack ∈ ps) (k : Nat) {stk : List Word}
    (hlen : stk.length = t.stk.length) : KeepsAllBut ps s { t with sp := k, stk := stk } := by
  intro p hp
  cases p with
  | stack => exact absurd hs hp
  | config =>
    obtain ⟨hq, hlimit, hcapacity⟩ := h .config hp
    exact ⟨hq, hlimit, hlen.trans hcapacity⟩
  | _ => exact h _ hp

theorem KeepsAllBut.setRegThenFlag (h : KeepsAllBut ps s t) (hr : Part.regs ∈ ps) (x : RegNum) (b : Byte) (f : Bool) :
    KeepsAllBut ps s (t.setRegThenFlag x b f) := (h.setReg hr x b).setReg hr vf (flagByte f)

theorem KeepsAllBut.logicFlag (h : KeepsAllBut ps s t) (hr : Part.regs ∈ ps) : KeepsAllBut ps s t.logicFlag := by
  unfold State.logicFlag
  split
  · exact h.setReg hr vf _
  · exact h

theorem KeepsAllBut.indexFlag (h : KeepsAllBut ps s t) (hr : Part.regs ∈ ps) : KeepsAllBut ps s t.indexFlag := by
  unfold State.indexFlag
  split
  · exact h.setReg hr vf _
  · exact h

end Sys2Proof.Claims

namespace Sys2Proof.Machine
open Sys2Proof.Claims

/-! ## The effect's frame -/

theorem pc_mem_partsWritten (i : Instr) : Part.pc ∈ partsWritten i := by
  cases i <;> simp [partsWritten]

/-- An instruction's effect touches no part beyond those of the spec's table, ERR least of all. -/
theorem effect_keeps (i : Instr) (s : State) : KeepsAllBut (partsWritten i) s (effect i s) := by
  have hrefl := KeepsAllBut.refl (partsWritten i) s
  cases i with
  | sys nnn => exact hrefl.withWarn (by simp [partsWritten]) _
  | cls => exact hrefl.withFb (by simp [partsWritten]) _
  | ret => exact hrefl.withStack (by simp [partsWritten]) _ rfl
  | call nnn => exact hrefl.withStack (by simp [partsWritten]) _ (by simp)
  | jp | jpOffset | seImm | sneImm | seReg | sneReg => exact hrefl
  | ldImm | addImm | ldReg | ldFromDt => exact hrefl.setReg (by simp [partsWritten]) _ _
  | or | and | xor => exact (hrefl.setReg (by simp [partsWritten]) _ _).logicFlag (by simp [partsWritten])
  | addReg | sub | shr | subn | shl => exact hrefl.setRegThenFlag (by simp [partsWritten]) _ _ _
  | rnd x nn => exact (hrefl.setReg (by simp [partsWritten]) _ _).withDraws (by simp [partsWritten]) _
  | ldI | ldFont => exact hrefl.withIndex (by simp [partsWritten]) _
  | addI x => exact (hrefl.withIndex (by simp [partsWritten]) _).indexFlag (by simp [partsWritten])
  | drw x y n =>
    simp only [effect]
    split
    · exact (hrefl.withFb (by simp [partsWritten]) _).setReg (by simp [partsWritten]) vf _
    · exact hrefl
  | skp | sknp => exact hrefl.withKey (by simp [partsWritten]) _
  | ldKey x =>
    simp only [effect]
    split
    · exact (hrefl.setReg (by simp [partsWritten]) _ _).withKey (by simp [partsWritten]) _
    · exact hrefl
  | ldDt x => exact hrefl.withDt (by simp [partsWritten]) _
  | ldSt x => exact hrefl.withSt (by simp [partsWritten]) _
  | ldBcd x => exact hrefl.withMem (by simp [partsWritten]) _
  | storeRegs x => exact (hrefl.withMem (by simp [partsWritten]) (s.mem.place _ _)).withIndex (by simp [partsWritten]) _
  | loadRegs x => exact (hrefl.withRegs (by simp [partsWritten]) _).withIndex (by simp [partsWritten]) _

theorem err_effect (i : Instr) (s : State) : (effect i s).err = s.err :=
  effect_keeps i s .err (by cases i <;> simp [partsWritten])

theorem reg_loaded_above {s : State} {x r : RegNum} (h : x.toNat < r.toNat) (bs : List Byte)
    (hlen : bs.length = x.toNat + 1) : (setRegsFrom s.v 0 bs)[r.toNat] = s.reg r := by
  rw [getElem_setRegsFrom, if_pos (Nat.zero_le _), List.getD_eq_default _ _ (by omega)]
  rfl

/-- An instruction's effect writes no register beyond its destination and, where the table of R13 says so, VF. -/
theorem effect_reg {i : Instr} {s : State} {r : RegNum} (h : ¬ MayWriteReg i s r) : (effect i s).reg r = s.reg r := by
  cases i with
  | ldImm | addImm | ldReg | rnd | ldFromDt => exact reg_setReg_other s _ r _ h
  | or | and | xor =>
    obtain ⟨hx, hf⟩ := not_or.mp h
    simp [effect, reg_logicFlag, reg_setReg, hx, hf]
  | addReg | sub | shr | subn | shl =>
    obtain ⟨hx, hf⟩ := not_or.mp h
    simp [effect, reg_setRegThenFlag, hx, hf]
  | addI x =>
    have hflag : ¬ (r = vf ∧ s.q.indexOverflowFlag = true ∧ s.indexLimit < (s.i + (s.reg x).setWidth 16).toNat) := by
      simpa [MayWriteReg, Nat.mod_eq_of_lt (Nat.lt_trans (s.reg x).isLt (by decide : 2 ^ 8 < 65536))] using h
    exact (reg_indexFlag _ r).trans (if_neg hflag)
  | drw x y n =>
    simp only [effect]
    split
    · exact reg_setReg_other _ vf r _ h
    · rfl
  | ldKey x =>
    simp only [effect]
    split
    · exact reg_setReg_other s x r _ h
    · rfl
  | loadRegs x => exact reg_loaded_above (Nat.not_le.mp h) _ (by simp)
  | _ => rfl

/-! ## Where an instruction ends -/

/-- The fatal an instruction raises in a running core: its own fault, then PC_RANGE (40_step_and_dispatch.md R91). -/
def faultOf (i : Instr) (s : State) : Option Fatal :=
  (ownFault i s).or (if PcLegal (pcNextOf i s) then none else some { code := .pcRange, info := pcNextOf i s })

/-- The state in which an instruction ends: its fatal latched, or its effect at its `pc_next`. -/
def after (i : Instr) (s : State) : State :=
  match faultOf i s with
  | some f => { s with err := s.err.or (some f) }
  | none => { effect i s with pc := BitVec.ofNat 16 (pcNextOf i s) }

theorem after_of_fault {i : Instr} {s : State} {f : Fatal} (h : faultOf i s = some f) :
    after i s = { s with err := s.err.or (some f) } := by
  simp [after, h]

theorem after_of_no_fault {i : Instr} {s : State} (h : faultOf i s = none) :
    after i s = { effect i s with pc := BitVec.ofNat 16 (pcNextOf i s) } := by
  simp [after, h]

theorem faultOf_eq_none_iff {i : Instr} {s : State} :
    faultOf i s = none ↔ ownFault i s = none ∧ PcLegal (pcNextOf i s) := by
  simp [faultOf]

theorem faultOf_of_ownFault {i : Instr} {s : State} {f : Fatal} (h : ownFault i s = some f) : faultOf i s = some f := by
  simp [faultOf, h]

theorem faultOf_of_illegal {i : Instr} {s : State} (h : ownFault i s = none) (hp : ¬ PcLegal (pcNextOf i s)) :
    faultOf i s = some { code := .pcRange, info := pcNextOf i s } := by
  rw [faultOf, h, if_neg hp]; rfl

theorem exec_eq_after {i : Instr} {s : State} (hs : StackFits i s) : exec i s = .next (after i s) := by
  cases hown : ownFault i s with
  | some f => rw [exec_of_ownFault hown, after_of_fault (faultOf_of_ownFault hown)]; rfl
  | none =>
    rw [exec_of_no_ownFault hs hown]
    by_cases hp : PcLegal (pcNextOf i s)
    · rw [commit_of_legal _ _ hp, after_of_no_fault (faultOf_eq_none_iff.mpr ⟨hown, hp⟩)]
    · rw [commit_of_illegal _ _ hp, after_of_fault (faultOf_of_illegal hown hp)]; rfl

/-- Inversion of `exec`, and its converse. -/
theorem exec_eq_next_iff {i : Instr} {s t : State} : exec i s = .next t ↔ StackFits i s ∧ after i s = t := by
  by_cases hs : StackFits i s
  · simp [exec_eq_after hs, hs]
  · simp [exec_of_stack_beyond hs, hs]

/-- A fatal of a running core is latched. -/
theorem after_of_running {i : Instr} {s : State} {f : Fatal} (hrun : s.err = none) (h : faultOf i s = some f) :
    after i s = { s with err := some f } := by
  rw [after_of_fault h, hrun]; rfl

theorem after_keeps (i : Instr) (s : State) : KeepsAllBut (.err :: partsWritten i) s (after i s) := by
  cases h : faultOf i s with
  | some f => rw [after_of_fault h]; exact (KeepsAllBut.refl _ s).withErr (by simp) _
  | none =>
    rw [after_of_no_fault h]
    exact ((effect_keeps i s).mono (by simp)).withPc (by simp [pc_mem_partsWritten]) _

/-- Settles O17: a fatal writes ERR alone, and an instruction that commits writes what its effect does, and `pc`. -/
theorem instructionsWriteOnlyTheirParts : Obligations.InstructionsWriteOnlyTheirParts := by
  intro i s t p h herr hp
  obtain ⟨-, rfl⟩ := exec_eq_next_iff.mp h
  exact after_keeps i s p (by simp [herr, hp])

/-- Settles O18: a fatal writes no register, a commit those of the effect. -/
theorem instructionsWriteOnlyTheirRegisters : Obligations.InstructionsWriteOnlyTheirRegisters := by
  intro i s t r h hr
  obtain ⟨-, rfl⟩ := exec_eq_next_iff.mp h
  cases hf : faultOf i s with
  | some f => rw [after_of_fault hf]; rfl
  | none => rw [after_of_no_fault hf]; exact effect_reg hr

/-! ## The order of checks and the only stop -/

/-- Settles O10: `after` makes the two checks in the spec's order; a commit at a legal `pc_next` keeps ERR, which no
effect writes. -/
theorem execEndsInTheOrderOfChecks : Obligations.ExecEndsInTheOrderOfChecks := by
  intro i s hrun hsp
  refine ⟨after i s, exec_eq_after (stackFits_of_sp_le hsp i), ?_⟩
  cases hown : ownFault i s with
  | some f => exact after_of_running hrun (faultOf_of_ownFault hown)
  | none =>
    dsimp only
    split
    · next hp =>
      rw [after_of_no_fault (faultOf_eq_none_iff.mpr ⟨hown, hp⟩)]
      exact ⟨(err_effect i s).trans hrun, toNat_of_legal hp⟩
    · next hp => exact after_of_running hrun (faultOf_of_illegal hown hp)

theorem not_stackFits_iff {i : Instr} {s : State} :
    ¬ StackFits i s ↔ s.stk.length < s.sp ∧ (i = .ret ∨ ∃ nnn, i = .call nnn) := by
  cases i <;> simp [StackFits]

/-- Settles O11: where the stack fits an instruction answers a next state, elsewhere the refusal, and no fault exists. -/
theorem execRefusesOnlyStackBeyondCapacity : Obligations.ExecRefusesOnlyStackBeyondCapacity := by
  refine ⟨fun i s r => ?_, exec_ne_fault⟩
  rw [← not_stackFits_iff]
  by_cases hs : StackFits i s
  · simp [exec_eq_after hs, hs]
  · simp [exec_of_stack_beyond hs, hs, eq_comm]

/-! ## What no instruction reads -/

/-- The same state with other values in the fields that are only written: WARN, ST, and the model's draw counter. -/
def State.withUnread (s : State) (w : Option Warning) (b : Byte) (k : Nat) : State :=
  { s with warn := w, st := b, draws := k }

section Unread
variable (i : Instr) (s : State) (w : Option Warning) (b : Byte) (k : Nat)

theorem stackFits_withUnread : StackFits i (s.withUnread w b k) ↔ StackFits i s := by
  cases i <;> rfl

theorem faultOf_withUnread : faultOf i (s.withUnread w b k) = faultOf i s := by
  cases i <;> rfl

theorem pcNextOf_withUnread : pcNextOf i (s.withUnread w b k) = pcNextOf i s := by
  cases i <;> rfl

theorem logicFlag_withUnread : (s.withUnread w b k).logicFlag = s.logicFlag.withUnread w b k :=
  (apply_ite (State.withUnread · w b k) (s.q.flagResetOnLogic = true) (s.setFlag false) s).symm

theorem indexFlag_withUnread : (s.withUnread w b k).indexFlag = s.indexFlag.withUnread w b k :=
  (apply_ite (State.withUnread · w b k) (s.q.indexOverflowFlag = true ∧ s.indexLimit < s.i.toNat) (s.setFlag true) s).symm

/-- The three instructions that write one of the three fields. -/
def WritesUnread : Instr → Prop
  | .sys _ | .ldSt _ | .rnd _ _ => True
  | _ => False

variable {i} in
theorem effect_withUnread (h : ¬ WritesUnread i) :
    effect i (s.withUnread w b k) = (effect i s).withUnread w b k := by
  cases i with
  | sys | ldSt | rnd => exact absurd trivial h
  | or | and | xor => exact logicFlag_withUnread (s.setReg _ _) w b k
  | addI x => exact indexFlag_withUnread { s with i := s.i + (s.reg x).setWidth 16 } w b k
  | drw x y n =>
    have hsame : drawSprite (s.withUnread w b k) n ((s.withUnread w b k).reg x) ((s.withUnread w b k).reg y)
        = drawSprite s n (s.reg x) (s.reg y) := rfl
    simp only [effect, hsame]
    cases drawSprite s n (s.reg x) (s.reg y) <;> rfl
  | ldKey x =>
    have hsame : (s.withUnread w b k).key = s.key := rfl
    cases hkey : s.key with
    | none => simp only [effect, hsame, hkey]
    | some key => simp only [effect, hsame, hkey]; rfl
  | _ => rfl

variable {i} in
theorem after_withUnread (h : ¬ WritesUnread i) : after i (s.withUnread w b k) = (after i s).withUnread w b k := by
  have hsame := faultOf_withUnread i s w b k
  cases hf : faultOf i s with
  | some f => rw [after_of_fault hf, after_of_fault (hsame.trans hf)]; rfl
  | none =>
    rw [after_of_no_fault hf, after_of_no_fault (hsame.trans hf), effect_withUnread s w b k h, pcNextOf_withUnread]
    rfl

variable {i} in
theorem after_withUnread_writer (h : WritesUnread i) :
    { after i (s.withUnread w b s.draws) with warn := (after i s).warn, st := (after i s).st } = after i s := by
  have hsame := faultOf_withUnread i s w b s.draws
  cases hf : faultOf i s with
  | some f => rw [after_of_fault hf, after_of_fault (hsame.trans hf)]; rfl
  | none =>
    rw [after_of_no_fault hf, after_of_no_fault (hsame.trans hf)]
    cases i with
    | sys | ldSt | rnd => rfl
    | _ => exact absurd h id

variable {i} in
theorem after_withDraws_writer (h : WritesUnread i) (hrnd : ∀ x nn, i ≠ .rnd x nn) :
    after i (s.withUnread s.warn s.st k) = { after i s with draws := k } := by
  have hsame := faultOf_withUnread i s s.warn s.st k
  cases hf : faultOf i s with
  | some f => rw [after_of_fault hf, after_of_fault (hsame.trans hf)]; rfl
  | none =>
    rw [after_of_no_fault hf, after_of_no_fault (hsame.trans hf)]
    cases i with
    | sys | ldSt => rfl
    | rnd x nn => exact absurd rfl (hrnd x nn)
    | _ => exact absurd h id

end Unread

/-- An instruction that writes none of the three leaves them. -/
theorem after_unread {i : Instr} (s : State) (h : ¬ WritesUnread i) :
    (after i s).warn = s.warn ∧ (after i s).st = s.st ∧ (after i s).draws = s.draws := by
  have hkeeps : KeepsAllBut (.err :: partsWritten i) s (after i s) := after_keeps i s
  cases i with
  | sys | ldSt | rnd => exact absurd trivial h
  | _ => exact ⟨hkeeps .warn (by simp [partsWritten]), hkeeps .st (by simp [partsWritten]),
      hkeeps .draws (by simp [partsWritten])⟩

/-- Settles O19: WARN and ST are in no operand, fault or `pc_next`; SYS, LD ST and RND overwrite one of the unread fields
with a value that does not depend on WARN and ST, the others carry the fields along. -/
theorem warnAndSoundTimerAreNeverRead : Obligations.WarnAndSoundTimerAreNeverRead := by
  intro i s t w b h
  obtain ⟨hs, rfl⟩ := exec_eq_next_iff.mp h
  refine ⟨after i (s.withUnread w b s.draws), exec_eq_after ((stackFits_withUnread i s w b s.draws).mpr hs), ?_⟩
  by_cases hw : WritesUnread i
  · exact after_withUnread_writer s w b hw
  · obtain ⟨-, -, hdraws⟩ := after_unread s hw
    rw [after_withUnread s w b s.draws hw, ← hdraws]
    rfl

/-- Settles O20: the counter is in no operand but RND's. -/
theorem onlyRndReadsTheDraw : Obligations.OnlyRndReadsTheDraw := by
  intro i s t k hrnd h
  obtain ⟨hs, rfl⟩ := exec_eq_next_iff.mp h
  have hnext := exec_eq_after ((stackFits_withUnread i s s.warn s.st k).mpr hs)
  refine hnext.trans (congrArg _ ?_)
  by_cases hw : WritesUnread i
  · exact after_withDraws_writer s k hw hrnd
  · obtain ⟨hwarn, hst, -⟩ := after_unread s hw
    rw [after_withUnread s s.warn s.st k hw, ← hwarn, ← hst]
    rfl

end Sys2Proof.Machine
end

section
/-! Proofs about STEP, the cycle, runs and the other transactions (40_step_and_dispatch.md, 60_exceptions.md,
70_reset_and_hazards.md). -/

namespace Sys2Proof.Machine
open Sys2Proof.Claims

/-! ## STEP -/

theorem not_pcLegal_iff {p : Nat} : ¬ PcLegal p ↔ p % 2 = 1 ∨ 4094 < p := by
  simp only [PcLegal, Config.pcMax]
  omega

/-- Settles O8: the fetch guard raises, and in a running core a raise writes ERR alone. -/
theorem fetchGuardRaisesPcRange : Obligations.FetchGuardRaisesPcRange := by
  intro s hrun hp
  rw [stepTransaction_of_illegal hrun (not_pcLegal_iff.mpr hp), raiseFatal_of_running hrun]
  rfl

/-- Settles O9: STEP ends in the latched fatal or in a commit (`EndsIn`), and a commit keeps ERR as it was. -/
theorem fatalStepChangesOnlyErr : Obligations.FatalStepChangesOnlyErr := by
  intro s t hrun h herr
  obtain ⟨hhalted, -⟩ | ⟨-, ⟨f, rfl⟩ | ⟨s', p, -, hkept, rfl⟩⟩ := stepTransaction_next h
  · exact absurd hrun hhalted
  · rfl
  · exact absurd (hkept.err.trans hrun) herr

/-- Two bytes that decode are a word that does. -/
theorem decodeWord_of_decodeBytes {hi lo : Byte} {i : Instr} (h : decodeBytes [hi, lo] = .ok (i, [])) :
    decodeWord (wordOfBytes hi lo) = .ok i := by
  cases hw : decodeWord (wordOfBytes hi lo) with
  | error e => simp [decodeBytes, hw, Except.map] at h
  | ok j => simpa [decodeBytes, hw, Except.map] using h

/-- Settles O6: past the two guards STEP is the dispatch of the fetched word, and a cycle TICKs the state it leaves. -/
theorem stepRunsDecodedInstructionThenTicks : Obligations.StepRunsDecodedInstructionThenTicks := by
  intro s i hrun hp hdecode
  have hstep : stepTransaction s = exec i s :=
    (stepTransaction_of_running hrun hp).trans (runWord_of_instr (decodeWord_of_decodeBytes hdecode) s)
  refine ⟨hstep, ?_⟩
  rw [step, cycle, hstep]
  cases exec i s <;> rfl

/-! ## UNKNOWN_OPCODE (60_exceptions.md R172) -/

theorem ownFault_code_ne {i : Instr} {s : State} {f : Fatal} (h : ownFault i s = some f) : f.code ≠ .unknownOpcode := by
  cases i with
  | ret | call | drw | ldBcd | storeRegs | loadRegs =>
    simp only [ownFault, Option.ite_none_right_eq_some, Option.some.injEq] at h
    obtain ⟨-, rfl⟩ := h
    exact FatalCode.noConfusion
  | _ => cases h

/-- No instruction raises UNKNOWN_OPCODE: it is dispatch that does. -/
theorem faultOf_code_ne {i : Instr} {s : State} {f : Fatal} (h : faultOf i s = some f) : f.code ≠ .unknownOpcode := by
  cases hown : ownFault i s with
  | some g =>
    cases (faultOf_of_ownFault hown).symm.trans h
    exact ownFault_code_ne hown
  | none =>
    by_cases hp : PcLegal (pcNextOf i s)
    · cases (faultOf_eq_none_iff.mpr ⟨hown, hp⟩).symm.trans h
    · cases (faultOf_of_illegal hown hp).symm.trans h
      exact FatalCode.noConfusion

theorem after_err_code_ne {i : Instr} {s : State} (hrun : s.err = none) {f : Fatal} (h : (after i s).err = some f) :
    f.code ≠ .unknownOpcode := by
  cases hf : faultOf i s with
  | some g =>
    rw [after_of_running hrun hf] at h
    cases h
    exact faultOf_code_ne hf
  | none =>
    rw [after_of_no_fault hf] at h
    exact absurd ((err_effect i s).trans hrun) (h ▸ Option.some_ne_none f)

theorem unknownWord_of_error {w : Word} {e : DecodeError} (h : decodeWord w = .error e) : UnknownWord w := by
  by_contra hnot
  have hok := (isOk_decodeWord_iff w).mpr hnot
  rw [h] at hok
  cases hok

theorem not_unknownWord_of_ok {w : Word} {i : Instr} (h : decodeWord w = .ok i) : ¬ UnknownWord w :=
  (isOk_decodeWord_iff w).mp (by rw [h]; rfl)

/-- Settles O5: the listed words are those that do not decode (`isOk_decodeWord_iff`); a word that does runs its
instruction, and no instruction raises UNKNOWN_OPCODE. -/
theorem unknownOpcodeRaisedByListedWordsOnly : Obligations.UnknownOpcodeRaisedByListedWordsOnly := by
  intro s hrun hp
  have hstep := stepTransaction_of_running hrun hp
  cases hd : decodeWord (fetchWord s) with
  | error e =>
    refine ⟨fun _ => ⟨?_, stepTransaction_of_halted rfl⟩, fun hnot => absurd (unknownWord_of_error hd) hnot⟩
    rw [hstep, runWord_of_error hd, raiseFatal_of_running hrun]
    rfl
  | ok i =>
    refine ⟨fun h => absurd h (not_unknownWord_of_ok hd), fun _ t info hnext herr => ?_⟩
    rw [hstep, runWord_of_instr hd] at hnext
    obtain ⟨-, rfl⟩ := exec_eq_next_iff.mp hnext
    exact after_err_code_ne hrun herr rfl

/-! ## The invariants (10_state.md R29) -/

/-- Settles O12: `pc` is 512, the stack is empty and memory lists nothing. -/
theorem goodAtReset : Obligations.GoodAtReset where
  pc_legal _ := by decide
  sp_le := Nat.zero_le _
  mem_wf := Memory.wf_nil

theorem EndsIn.good {s t : State} (h : EndsIn s t) (hs : s.Good) : t.Good := by
  obtain ⟨f, rfl⟩ | ⟨s', p, hp, hkept, rfl⟩ := h
  · exact ⟨fun herr => by simp at herr, hs.sp_le, hs.mem_wf⟩
  · exact ⟨fun _ => (toNat_of_legal hp).symm ▸ hp, hkept.sp_le hs.sp_le, hkept.mem_wf hs.mem_wf⟩

theorem stepTransaction_good {s t : State} (hs : s.Good) (h : stepTransaction s = .next t) : t.Good := by
  obtain ⟨-, rfl⟩ | ⟨-, hends⟩ := stepTransaction_next h
  · exact hs
  · exact hends.good hs

theorem tick_good {s : State} (h : s.Good) : (tick s).Good := ⟨h.pc_legal, h.sp_le, h.mem_wf⟩

/-- Settles O13: a cycle is a STEP, which ends in a fatal or a commit that keeps the invariants, and then a TICK. -/
theorem stepKeepsGood : Obligations.StepKeepsGood := by
  intro s t hs h
  obtain ⟨u, hu, rfl⟩ := step_next h
  exact tick_good (stepTransaction_good hs hu)

/-- With SP at most STACK_CAPACITY every STEP completes. -/
theorem stepTransaction_completes {s : State} (h : s.sp ≤ s.stk.length) : ∃ t, stepTransaction s = .next t := by
  cases hrun : s.err with
  | some f => exact ⟨s, stepTransaction_of_halted hrun⟩
  | none =>
    by_cases hp : PcLegal s.pc.toNat
    · rw [stepTransaction_of_running hrun hp]
      cases hd : decodeWord (fetchWord s) with
      | error e => exact ⟨_, runWord_of_error hd s⟩
      | ok i => exact ⟨_, (runWord_of_instr hd s).trans (exec_eq_after (stackFits_of_sp_le h i))⟩
    · exact ⟨_, stepTransaction_of_illegal hrun hp⟩

theorem reset_good (q : Quirks) (font label : Vector Byte 80) (s : State) : (reset q font label s).Good where
  pc_legal := goodAtReset.pc_legal
  sp_le := Nat.zero_le _
  mem_wf := Memory.wf_place Memory.wf_nil _ _ (by simp [Config.memSize])

theorem loadProgram_good {s : State} (h : s.Good) (bytes : List Byte) : (loadProgram bytes s).2.Good := by
  unfold loadProgram
  split
  · next hlen =>
    simp only [Config.memSize, Config.progBase] at hlen
    exact ⟨h.pc_legal, h.sp_le, Memory.wf_place h.mem_wf _ _ (by simp only [Config.memSize, Config.progBase]; omega)⟩
  · exact h

theorem transact_good {s : State} (hs : s.Good) (tr : Transaction) : ∃ t, transact tr s = .next t ∧ t.Good := by
  cases tr with
  | reset q font label => exact ⟨_, rfl, reset_good q font label s⟩
  | loadProgram bytes => exact ⟨_, rfl, loadProgram_good hs bytes⟩
  | step =>
    obtain ⟨t, ht⟩ := stepTransaction_completes hs.sp_le
    exact ⟨t, ht, stepTransaction_good hs ht⟩
  | tick => exact ⟨_, rfl, tick_good hs⟩
  | feedKey k => exact ⟨_, rfl, hs.pc_legal, hs.sp_le, hs.mem_wf⟩
  | fbView | status => exact ⟨_, rfl, hs⟩

/-- Settles O14, by induction on the sequence: each transaction completes in a good state. -/
theorem everyTransactionSequenceKeepsGood : Obligations.EveryTransactionSequenceKeepsGood := by
  intro ts
  induction ts with
  | nil => exact fun s hs => ⟨s, rfl, hs⟩
  | cons tr ts ih =>
    intro s hs
    obtain ⟨u, hu, hgood⟩ := transact_good hs tr
    simpa only [transactAll, hu] using ih u hgood

/-! ## ERR outside RESET (10_state.md R23) -/

theorem loadProgram_err (bytes : List Byte) (s : State) : (loadProgram bytes s).2.err = s.err := by
  unfold loadProgram
  split <;> rfl

/-- Settles O15: STEP of a halted core answers the state it was given, and no other transaction but RESET writes ERR. -/
theorem errStaysLatchedUntilReset : Obligations.ErrStaysLatchedUntilReset := by
  refine ⟨fun q font label s t f _ h => ?_, fun tr s t f hnot hf h => ?_⟩
  · cases h
    rfl
  · cases tr with
    | reset q font label => exact absurd rfl (hnot q font label)
    | step =>
      cases (stepTransaction_of_halted hf).symm.trans h
      exact hf
    | loadProgram bytes => cases h; exact (loadProgram_err bytes s).trans hf
    | tick | feedKey | fbView | status => cases h; exact hf

/-! ## TICK, FEED_KEY and LOAD_PROGRAM -/

theorem toNat_countDown (b : Byte) : (countDown b).toNat = b.toNat - 1 := by
  unfold countDown
  split
  · next h => simp [h]
  · next h => exact BitVec.toNat_sub_of_le (by bv_omega)

theorem tick_keeps {s t : State} (h : KeepsAllBut [.dt, .st] s t) : KeepsAllBut [.dt, .st] s (tick t) :=
  (h.withDt (by decide) (countDown t.dt)).withSt (by decide) (countDown t.st)

/-- Settles O56, by induction on the number of TICKs, the last one split off. -/
theorem ticksCountTimersDownToZero : Obligations.TicksCountTimersDownToZero := by
  intro k s
  induction k with
  | zero => exact ⟨rfl, rfl, KeepsAllBut.refl _ s⟩
  | succ k ih =>
    obtain ⟨hdt, hst, hkeeps⟩ := ih
    rw [Function.iterate_succ_apply']
    refine ⟨(toNat_countDown _).trans (by omega), (toNat_countDown _).trans (by omega), tick_keeps hkeeps⟩

/-- Settles O57: FEED_KEY is one write of the latch. -/
theorem feedKeySetsLatchOnly : Obligations.FeedKeySetsLatchOnly :=
  fun k s => ⟨feedKey k s, rfl, rfl, (KeepsAllBut.refl _ s).withKey (by decide) k⟩

theorem loadProgram_of_fits {bytes : List Byte} (h : bytes.length ≤ 3584) (s : State) :
    loadProgram bytes s = (.ok, { s with mem := s.mem.place 512 bytes }) := if_pos h

theorem loadProgram_of_too_long {bytes : List Byte} (h : 3584 < bytes.length) (s : State) :
    loadProgram bytes s = (.tooLong, s) := if_neg (Nat.not_le.mpr h)

/-- Settles O58: a program that fits is one placing of its bytes from 512 up. -/
theorem loadProgramWritesItsBytesOnly : Obligations.LoadProgramWritesItsBytesOnly := by
  refine fun bytes s => ⟨fun hfits => ?_, fun hlong => loadProgram_of_too_long hlong s⟩
  rw [loadProgram_of_fits hfits]
  refine ⟨rfl, fun k b hb => ?_, fun a ha => Memory.read_place_outside _ _ _ ha,
    (KeepsAllBut.refl _ s).withMem (by decide) _⟩
  obtain ⟨hk, rfl⟩ := List.getElem?_eq_some_iff.mp hb
  exact Memory.read_place_inside _ _ _ hk

/-! ## Runs that only count down (60_exceptions.md R193; 70_reset_and_hazards.md R207) -/

/-- A property of running cores under which a cycle is a TICK, and that TICK keeps, holds along any number of cycles. -/
theorem idles_of_step_eq_tick {P : State → Prop} (hrun : ∀ s, P s → s.err = none)
    (hstep : ∀ s, P s → step s = .next (tick s)) (htick : ∀ s, P s → P (tick s)) (k : Nat) :
    ∀ s, P s → Host.Core.run Sys2Proof.core k s = .next (Nat.iterate tick k s) ∧ P (Nat.iterate tick k s)
      ∧ SafeFor k s := by
  induction k with
  | zero => exact fun s hs => ⟨rfl, hs, hrun s hs⟩
  | succ k ih =>
    intro s hs
    obtain ⟨hruns, hend, hsafe⟩ := ih (tick s) (htick s hs)
    exact ⟨(run_succ_of_step (hstep s hs) k).trans hruns, hend, hrun s hs, tick s, hstep s hs, hsafe⟩

/-- A running core at a legal `pc` that waits in LD Vx, K (45_keypad_and_timers.md R162). -/
structure WaitsForKey (x : RegNum) (s : State) : Prop where
  running : s.err = none
  no_key : s.key = none
  legal : PcLegal s.pc.toNat
  at_ldKey : decodeWord (fetchWord s) = .ok (.ldKey x)

theorem WaitsForKey.step_eq {x : RegNum} {s : State} (h : WaitsForKey x s) : step s = .next (tick s) := by
  refine step_of_stepTransaction ?_
  rw [stepTransaction_of_running h.running h.legal, runWord_of_instr h.at_ldKey, exec_ldKey,
    execLdKey_of_none h.no_key, commit_self h.legal]

theorem WaitsForKey.tick {x : RegNum} {s : State} (h : WaitsForKey x s) : WaitsForKey x (Machine.tick s) :=
  ⟨h.running, h.no_key, h.legal, h.at_ldKey⟩

/-- Settles O54: waiting is a property under which a cycle is a TICK and that TICK keeps. -/
theorem waitingForKeyOnlyCountsDown : Obligations.WaitingForKeyOnlyCountsDown := by
  intro k x s hrun hkey hp hd
  obtain ⟨hruns, -, hsafe⟩ := idles_of_step_eq_tick (P := WaitsForKey x) (fun _ h => h.running)
    (fun _ h => h.step_eq) (fun _ h => h.tick) k s ⟨hrun, hkey, hp, hd⟩
  exact ⟨hruns, hsafe⟩

/-- A halted core stays halted, and a halted core has not ended. -/
theorem not_endsWithin_of_halted (a k : Nat) : ∀ s : State, s.Halted → ¬ EndsWithin a k s := by
  induction k with
  | zero => exact fun s hs hend => hs hend.running
  | succ k ih =>
    rintro s hs (hend | ⟨t, ht, hend⟩)
    · exact hs hend.running
    · obtain ⟨f, hf⟩ := Option.ne_none_iff_exists'.mp hs
      cases (step_of_halted hf).symm.trans ht
      exact ih (tick s) hs hend

/-- Settles O60: an end is a property under which a cycle is a TICK and that TICK keeps. -/
theorem endedProgramIdlesAndHaltedCoreNeverEnds : Obligations.EndedProgramIdlesAndHaltedCoreNeverEnds :=
  fun a k s => ⟨idles_of_step_eq_tick (fun _ h => h.running) (fun _ h => h.step_eq) (fun _ h => h.tick) k s,
    not_endsWithin_of_halted a k s⟩

end Sys2Proof.Machine
end

section
/-! Proofs about single instructions that complete or fault in one way: control transfer (41_control_transfer.md), keypad
and timers (45_keypad_and_timers.md), SYS (40_step_and_dispatch.md R92). -/

namespace Sys2Proof.Machine
open Sys2Proof.Claims

/-! ## Completing and raising PC_RANGE -/

/-- The state in which an instruction that completes ends. -/
abbrev committed (i : Instr) (s : State) : State := { effect i s with pc := BitVec.ofNat 16 (pcNextOf i s) }

section Completion
variable {i : Instr} {s : State} (hs : StackFits i s) (hown : ownFault i s = none)
include hs hown

theorem exec_completes (hp : PcLegal (pcNextOf i s)) : exec i s = .next (committed i s) :=
  (exec_eq_after hs).trans (congrArg _ (after_of_no_fault (faultOf_eq_none_iff.mpr ⟨hown, hp⟩)))

theorem exec_raises_pcRange (hrun : s.err = none) (hp : ¬ PcLegal (pcNextOf i s)) :
    exec i s = .next (withFatal s .pcRange (pcNextOf i s)) :=
  (exec_eq_after hs).trans (congrArg _ (after_of_running hrun (faultOf_of_illegal hown hp)))

end Completion

theorem committed_keeps {i : Instr} {ps : List Part} (h : partsWritten i ⊆ ps) (s : State) :
    KeepsAllBut ps s (committed i s) :=
  ((effect_keeps i s).mono h).withPc (h (pc_mem_partsWritten i)) _

theorem exec_raises_ownFault {i : Instr} {s : State} {code : FatalCode} {info : Nat} (hrun : s.err = none)
    (h : ownFault i s = some { code := code, info := info }) : exec i s = .next (withFatal s code info) :=
  (exec_of_ownFault h).trans (raiseFatal_of_running hrun _)

/-- An instruction that leaves ERR clear has completed. -/
theorem completed_of_err_none {i : Instr} {s t : State} (h : exec i s = .next t) (ht : t.err = none) :
    faultOf i s = none ∧ t = committed i s := by
  obtain ⟨-, rfl⟩ := exec_eq_next_iff.mp h
  cases hf : faultOf i s with
  | some f => rw [after_of_fault hf] at ht; simp at ht
  | none => exact ⟨rfl, after_of_no_fault hf⟩

/-! ## Jumps and skips -/

/-- An instruction that writes `pc` alone goes to its `pc_next`, or raises PC_RANGE with it. -/
theorem exec_moves_pc_only {i : Instr} {s : State} (hparts : partsWritten i = [.pc]) (hs : StackFits i s)
    (hown : ownFault i s = none) :
    (PcLegal (pcNextOf i s) → ∃ t, exec i s = .next t ∧ t.pc.toNat = pcNextOf i s ∧ KeepsAllBut [.pc] s t)
      ∧ (s.err = none → ¬ PcLegal (pcNextOf i s) → exec i s = .next (withFatal s .pcRange (pcNextOf i s))) :=
  ⟨fun hp => ⟨_, exec_completes hs hown hp, toNat_of_legal hp, committed_keeps (hparts ▸ List.Subset.refl _) s⟩,
    exec_raises_pcRange hs hown⟩

theorem pcLegal_of_even {nnn : Addr12} (h : nnn.toNat % 2 = 0) : PcLegal nnn.toNat := by
  have := nnn.isLt
  exact ⟨h, by simp only [Config.pcMax]; omega⟩

/-- Settles O24: JP writes `pc` alone, and every even twelve-bit target is legal. -/
theorem jumpGoesToEvenTarget : Obligations.JumpGoesToEvenTarget := by
  intro nnn s
  obtain ⟨hlegal, hillegal⟩ := exec_moves_pc_only (i := .jp nnn) (s := s) rfl trivial rfl
  exact ⟨decodeWord_encode (i := .jp nnn) rfl, fun heven => hlegal (pcLegal_of_even heven),
    fun hrun hodd => hillegal hrun fun hp => by have := hp.1; simp only [pcNextOf] at this; omega⟩

/-- Settles O28: SE and SNE with an immediate write `pc` alone. -/
theorem skipsOnImmediateTestTheRegister : Obligations.SkipsOnImmediateTestTheRegister := by
  intro x nn s
  refine ⟨?_, decodeWord_encode (i := .seImm x nn) rfl, decodeWord_encode (i := .sneImm x nn) rfl⟩
  rintro i p (⟨rfl, rfl⟩ | ⟨rfl, rfl⟩)
  · exact exec_moves_pc_only (i := .seImm x nn) rfl trivial rfl
  · exact exec_moves_pc_only (i := .sneImm x nn) rfl trivial rfl

theorem decodeWord_seReg (x y : RegNum) (n : Nibble) :
    decodeWord (0x5000#16 ||| placeX x ||| placeY y ||| placeN n) = .ok (.seReg x y) := by
  simp [decodeWord]

theorem decodeWord_sneReg (x y : RegNum) (n : Nibble) :
    decodeWord (0x9000#16 ||| placeX x ||| placeY y ||| placeN n) = .ok (.sneReg x y) := by
  simp [decodeWord]

/-- Settles O29: SE and SNE with two registers write `pc` alone, and dispatch does not look at the low nibble. -/
theorem skipsOnRegistersCompareThem : Obligations.SkipsOnRegistersCompareThem := by
  intro x y n s
  refine ⟨?_, decodeWord_seReg x y n, decodeWord_sneReg x y n⟩
  rintro i p (⟨rfl, rfl⟩ | ⟨rfl, rfl⟩)
  · exact exec_moves_pc_only (i := .seReg x y) rfl trivial rfl
  · exact exec_moves_pc_only (i := .sneReg x y) rfl trivial rfl

/-- Settles O30: JP V0 writes `pc` alone, and its target is `pcNextOf` under either strap. -/
theorem offsetJumpAddsTheStrapsRegister : Obligations.OffsetJumpAddsTheStrapsRegister := by
  intro nnn s p htarget
  have hp : pcNextOf (.jpOffset nnn) s = p := by
    rcases htarget with ⟨hq, rfl⟩ | ⟨hq, rfl⟩ <;> simp only [pcNextOf, hq]
  exact hp ▸ exec_moves_pc_only (i := .jpOffset nnn) rfl trivial rfl

/-- Settles O52: SKP and SKNP consume the latch and go to their `pc_next`, or raise PC_RANGE with it. -/
theorem keySkipsTestAndConsumeLatch : Obligations.KeySkipsTestAndConsumeLatch := by
  rintro x s i p (⟨rfl, rfl⟩ | ⟨rfl, rfl⟩)
  · exact ⟨fun hp => ⟨_, exec_completes (i := .skp x) trivial rfl hp, toNat_of_legal hp, rfl,
      committed_keeps (by simp [partsWritten]) s⟩, exec_raises_pcRange (i := .skp x) trivial rfl⟩
  · exact ⟨fun hp => ⟨_, exec_completes (i := .sknp x) trivial rfl hp, toNat_of_legal hp, rfl,
      committed_keeps (by simp [partsWritten]) s⟩, exec_raises_pcRange (i := .sknp x) trivial rfl⟩

/-! ## CALL and RET -/

/-- Settles O22: with an entry to pop RET has no fault of its own, and its `pc_next` is that entry plus 2. -/
theorem retResumesAfterPoppedAddress : Obligations.RetResumesAfterPoppedAddress := by
  intro s a hpos htop hp
  have hfits : s.sp ≤ s.stk.length := by
    have := (List.getElem?_eq_some_iff.mp htop).1
    omega
  have hnext : pcNextOf .ret s = a.toNat + 2 := by simp [pcNextOf, List.getD, htop]
  have hown : ownFault .ret s = none := if_neg (Nat.ne_of_gt hpos)
  exact ⟨_, exec_completes (i := .ret) hfits hown (hnext ▸ hp), (toNat_of_legal (hnext ▸ hp)).trans hnext, rfl, rfl,
    committed_keeps (by simp [partsWritten]) s⟩

theorem exec_call_of_room {nnn : Addr12} {s : State} (h : s.sp < s.stk.length) (hp : PcLegal nnn.toNat) :
    exec (.call nnn) s = .next (committed (.call nnn) s) :=
  exec_completes (Nat.le_of_lt h) (if_neg (Nat.ne_of_lt h)) hp

/-- Settles O25: with room CALL has no fault of its own, and its effect sets one cell of the stack. -/
theorem callPushesItsOwnAddress : Obligations.CallPushesItsOwnAddress := by
  intro nnn s hroom heven
  have hp := pcLegal_of_even heven
  exact ⟨_, exec_call_of_room hroom hp, toNat_of_legal hp, rfl, List.getElem?_set_self hroom,
    fun k hk => List.getElem?_set_ne (Ne.symm hk), committed_keeps (by simp [partsWritten]) s⟩

/-- Settles O26: on a full stack CALL is the raise of its `Push`. -/
theorem callOnFullStackIsFatal : Obligations.CallOnFullStackIsFatal := by
  intro nnn s hrun hfull
  exact exec_raises_ownFault hrun (if_pos hfull)

/-- A CALL that completes had room. -/
theorem call_completed {nnn : Addr12} {s t : State} (h : exec (.call nnn) s = .next t) (ht : t.err = none) :
    s.sp < s.stk.length ∧ t = committed (.call nnn) s := by
  obtain ⟨hfits, -⟩ := exec_eq_next_iff.mp h
  obtain ⟨hf, rfl⟩ := completed_of_err_none h ht
  have hroom : s.sp ≠ s.stk.length := by simpa [ownFault] using (faultOf_eq_none_iff.mp hf).1
  exact ⟨Nat.lt_of_le_of_ne hfits hroom, rfl⟩

/-- Settles O27: the entry RET pops is the one the CALL set, since both go by the same SP. -/
theorem retUndoesCall : Obligations.RetUndoesCall := by
  intro nnn s t u _ _ hp hcall ht hsp hstk
  obtain ⟨hroom, rfl⟩ := call_completed hcall ht
  have hsp' : u.sp = s.sp + 1 := hsp
  have htop : u.stk[u.sp - 1]? = some s.pc := by
    rw [hstk, hsp']
    exact List.getElem?_set_self hroom
  obtain ⟨v, hret, hpc, hvsp, -⟩ := retResumesAfterPoppedAddress u s.pc (by omega) htop hp
  exact ⟨v, hret, hpc, by omega⟩

/-! ## SYS and the timer moves -/

/-- Settles O21: SYS has no fault, and its effect is the warning. -/
theorem sysWarnsAndContinues : Obligations.SysWarnsAndContinues := fun nnn s hp =>
  ⟨_, exec_completes (i := .sys nnn) trivial rfl hp, rfl, committed_keeps (by simp [partsWritten]) s,
    toNat_of_legal hp⟩

/-- Settles O55: the three moves have no fault, and each is one write of a byte. -/
theorem timerMovesCopyTheByte : Obligations.TimerMovesCopyTheByte := fun x s hp =>
  ⟨commit_setReg_loadsOnly hp x s.dt,
    ⟨_, exec_completes (i := .ldDt x) trivial rfl hp, rfl, committed_keeps (by simp [partsWritten]) s,
      toNat_of_legal hp⟩,
    ⟨_, exec_completes (i := .ldSt x) trivial rfl hp, rfl, committed_keeps (by simp [partsWritten]) s,
      toNat_of_legal hp⟩⟩

end Sys2Proof.Machine
end

section
/-! Proofs about the register-only instructions (42_alu.md). -/

namespace Sys2Proof.Machine
open Sys2Proof.Claims

/-- Settles O33: LD Vx, Vy is one register write. -/
theorem loadRegisterCopiesVy : Obligations.LoadRegisterCopiesVy := fun x y s hp =>
  ⟨decodeWord_encode (i := .ldReg x y) rfl, commit_setReg_loadsOnly hp x (s.reg y)⟩

/-- Settles O38: RND is one register write, of the draw masked, and one step of the counter. -/
theorem randomByteIsMasked : Obligations.RandomByteIsMasked := by
  intro x nn s hp
  have hreg : (committed (.rnd x nn) s).reg x = Config.rndDraw s.draws &&& nn := reg_setReg_same s x _
  refine ⟨_, exec_completes (i := .rnd x nn) trivial rfl hp, hreg, ?_, regsKeptBut_setReg s x _,
    committed_keeps (by simp [partsWritten]) s, toNat_of_legal hp⟩
  rw [hreg, BitVec.and_assoc, BitVec.and_not_self]
  exact BitVec.and_zero

/-- What every instruction does that writes `V[x]` and then VF: where the next address is legal, it completes. -/
theorem commit_setRegThenFlag_loadsWithFlag {s : State} (hp : PcLegal (s.pc.toNat + 2)) (x : RegNum) (b : Byte) (f : Bool) :
    ∃ t, commit s (s.setRegThenFlag x b f) (nextPc s) = .next t ∧ LoadsWithFlag x b f s t := by
  have hreg := reg_setRegThenFlag s x (b := b) (f := f)
  refine ⟨_, commit_of_legal s (s.setRegThenFlag x b f) hp, ?flag, ?result, ?regs, ?frame, toNat_of_legal hp⟩
  case flag => exact (hreg vf).trans (if_pos rfl)
  case result => exact fun hx => (hreg x).trans (by simp [hx])
  case regs =>
    intro r hr
    obtain ⟨hx, hf⟩ : r ≠ x ∧ r ≠ vf := by simpa using hr
    exact (hreg r).trans (by simp [hx, hf])
  case frame => exact ((KeepsAllBut.refl _ s).setRegThenFlag (by decide) x b f).withPc (by decide) _

/-- Settles O35: ADD Vx, Vy writes the sum that `BitVec` addition reduces modulo 256, then the carry. -/
theorem addRegistersSetsCarry : Obligations.AddRegistersSetsCarry := by
  intro x y s hp
  rw [ofNat_add_mod_256]
  exact ⟨decodeWord_encode (i := .addReg x y) rfl, commit_setRegThenFlag_loadsWithFlag hp x _ _⟩

/-- The machine's difference of two bytes is the difference modulo 256. -/
theorem ofNat_sub_mod_256 (a b : Byte) : BitVec.ofNat 8 ((a.toNat + 256 - b.toNat) % 256) = a - b := by
  bv_omega

/-- Settles O36: SUB and SUBN write the difference that `BitVec` subtraction reduces modulo 256, then the no-borrow. -/
theorem subtractionsSetNoBorrow : Obligations.SubtractionsSetNoBorrow := by
  intro x y s hp
  rw [ofNat_sub_mod_256, ofNat_sub_mod_256]
  exact ⟨commit_setRegThenFlag_loadsWithFlag hp x _ _, commit_setRegThenFlag_loadsWithFlag hp x _ _⟩

theorem ofNat_div_two (v : Byte) : BitVec.ofNat 8 (v.toNat / 2) = v >>> 1 := by
  apply BitVec.eq_of_toNat_eq
  have := v.isLt
  simp [Nat.shiftRight_eq_div_pow]
  omega

theorem ofNat_mul_two_mod_256 (v : Byte) : BitVec.ofNat 8 (v.toNat * 2 % 256) = v <<< 1 := by
  apply BitVec.eq_of_toNat_eq
  simp [Nat.shiftLeft_eq]

theorem bitOutRight_eq (v : Byte) : bitOutRight v = decide (v.toNat % 2 = 1) := by
  simp [bitOutRight, BitVec.getLsbD, Nat.testBit_zero]

theorem bitOutLeft_eq : ∀ v : Byte, bitOutLeft v = decide (128 ≤ v.toNat) := by decide

/-- Settles O37: SHR and SHL write the shifted operand of the strap, then the bit shifted out. -/
theorem shiftsMoveOneBitIntoFlag : Obligations.ShiftsMoveOneBitIntoFlag := by
  intro x y s v hp hv
  have hsource : shiftOperand s x y = v := hv.symm
  rw [ofNat_div_two, ofNat_mul_two_mod_256, ← bitOutRight_eq, ← bitOutLeft_eq, ← hsource]
  exact ⟨decodeWord_encode (i := .shr x y) rfl, decodeWord_encode (i := .shl x y) rfl,
    commit_setRegThenFlag_loadsWithFlag hp x _ _, commit_setRegThenFlag_loadsWithFlag hp x _ _⟩

/-- What OR, AND and XOR do alike: `V[x]` is written, then VF is cleared under its strap. -/
theorem commit_logicFlag {s : State} (hp : PcLegal (s.pc.toNat + 2)) (x : RegNum) (b : Byte) :
    ∃ t, commit s (s.setReg x b).logicFlag (nextPc s) = .next t
      ∧ (s.q.flagResetOnLogic = true → t.reg 15#4 = 0#8)
      ∧ (s.q.flagResetOnLogic = false → x ≠ 15#4 → t.reg 15#4 = s.reg 15#4)
      ∧ (s.q.flagResetOnLogic = false ∨ x ≠ 15#4 → t.reg x = b)
      ∧ RegsKeptBut [x, 15#4] s t ∧ KeepsAllBut [.regs, .pc] s t ∧ t.pc.toNat = s.pc.toNat + 2 := by
  have hreg := reg_logicFlag (s.setReg x b)
  simp only [setReg_q, reg_setReg] at hreg
  refine ⟨_, commit_of_legal s (s.setReg x b).logicFlag hp, ?cleared, ?flag, ?result, ?regs, ?frame, toNat_of_legal hp⟩
  case cleared => exact fun hq => (hreg vf).trans (by simp [hq])
  case flag => exact fun hq hx => (hreg vf).trans (by simp [hq, Ne.symm hx])
  case result => exact fun h => (hreg x).trans (by rcases h with h | h <;> simp [h])
  case regs =>
    intro r hr
    obtain ⟨hx, hf⟩ : r ≠ x ∧ r ≠ vf := by simpa using hr
    exact (hreg r).trans (by simp [hx, hf])
  case frame => exact (((KeepsAllBut.refl _ s).setReg (by decide) x b).logicFlag (by decide)).withPc (by decide) _

/-- Settles O34: the three operations differ in their code and in the byte they write, whose bits are those of the
operation. -/
theorem logicOperationsWriteVxAndStrappedFlag : Obligations.LogicOperationsWriteVxAndStrappedFlag := by
  intro x y s hp i code bit hop
  have hshape : decodeWord (code ||| atX x ||| atY y) = .ok i ∧ ∃ b : Byte,
      exec i s = commit s (s.setReg x b).logicFlag (nextPc s)
        ∧ ∀ k, b.getLsbD k = bit ((s.reg x).getLsbD k) ((s.reg y).getLsbD k) := by
    rcases hop with ⟨rfl, rfl, rfl⟩ | ⟨rfl, rfl, rfl⟩ | ⟨rfl, rfl, rfl⟩
    · exact ⟨decodeWord_encode (i := .or x y) rfl, _, rfl, fun _ => BitVec.getLsbD_or⟩
    · exact ⟨decodeWord_encode (i := .and x y) rfl, _, rfl, fun _ => BitVec.getLsbD_and⟩
    · exact ⟨decodeWord_encode (i := .xor x y) rfl, _, rfl, fun _ => BitVec.getLsbD_xor⟩
  obtain ⟨hdecode, b, hexec, hbits⟩ := hshape
  obtain ⟨t, hcommit, hcleared, hflag, hresult, hrest⟩ := commit_logicFlag hp x b
  exact ⟨hdecode, t, hexec.trans hcommit, hcleared, hflag, fun h k _ => by rw [hresult h, hbits], hrest⟩

end Sys2Proof.Machine
end

section
/-! Proofs about memory (20_memory.md) and about the index register and the memory instructions
(43_index_and_memory.md). -/

namespace Sys2Proof.Machine.Memory

/-- Settles O46: the two rules of a write, as one case split on the address. -/
theorem memoryReadsLastWrite : Obligations.MemoryReadsLastWrite := by
  intro m a b v
  split
  · next h => rw [h, read_write_same]
  · next h => exact read_write_other m v h

/-- In the canonical form the cells are what memory reads as: those whose byte differs from the reset contents. -/
theorem mem_iff_read {m : Memory} (h : m.wf) (c : Host.Cell) :
    c ∈ m ↔ m.read c.1 = c.2 ∧ c.2 ≠ unlistedByte c.1 := by
  constructor
  · exact fun hc => ⟨read_of_mem h.1 hc, (h.2 c hc).2⟩
  · rintro ⟨hread, hne⟩
    by_contra hnot
    have hunlisted : ∀ d ∈ m, d.1 ≠ c.1 := by
      intro d hd haddr
      have hbyte : d.2 = c.2 := by rw [← read_of_mem h.1 hd, haddr, hread]
      exact hnot (Prod.ext haddr hbyte ▸ hd)
    exact hne (hread.symm.trans (read_of_not_mem hunlisted))

theorem nodup_of_wf {m : Memory} (h : m.wf) : m.Nodup :=
  h.1.imp fun hlt heq => Nat.ne_of_lt hlt (congrArg Prod.fst heq)

/-- Settles O47: memories that read alike list the same cells (`mem_iff_read`), and rising addresses leave one order. -/
theorem canonicalMemoryIsUnique : Obligations.CanonicalMemoryIsUnique := by
  intro m m' hm hm' hread
  have hcells : ∀ c, c ∈ m ↔ c ∈ m' := fun c => by rw [mem_iff_read hm, mem_iff_read hm', hread]
  exact List.Perm.eq_of_pairwise (fun _ _ _ _ hlt hgt => absurd hgt (Nat.lt_asymm hlt)) hm.1 hm'.1
    ((List.perm_ext_iff_of_nodup (nodup_of_wf hm) (nodup_of_wf hm')).mpr hcells)

end Sys2Proof.Machine.Memory

namespace Sys2Proof.Machine
open Sys2Proof.Claims

/-! ## The index register -/

theorem toNat_glyphAddr (b : Byte) : (glyphAddr b).toNat = 80 + b.toNat * 5 := by
  have := b.isLt
  simp only [glyphAddr, Config.fontBase, Config.glyphSize, BitVec.toNat_ofNat]
  omega

/-- Settles O41: LD F is one write of `I`; 80 + 5 * 255 fits in 16 bits. -/
theorem fontIndexIsFiveTimesRegister : Obligations.FontIndexIsFiveTimesRegister := by
  intro x s hp
  obtain ⟨t, hexec, hi, hframe, hpc⟩ := commit_index hp (glyphAddr (s.reg x))
  exact ⟨t, hexec, by rw [hi, toNat_glyphAddr], hframe, hpc⟩

theorem toNat_add_zext (a : Word) (b : Byte) : (a + b.setWidth 16).toNat = (a.toNat + b.toNat) % 65536 := by
  rw [BitVec.toNat_add, BitVec.toNat_setWidth_of_le (by decide)]

/-- Settles O40: ADD I is one write of `I`, then VF under its strap (`reg_indexFlag`). -/
theorem addIndexSetsFlagPastLimit : Obligations.AddIndexSetsFlagPastLimit := by
  intro x s hp
  have hi : (committed (.addI x) s).i = s.i + (s.reg x).setWidth 16 := indexFlag_i _
  have hreg := reg_indexFlag { s with i := s.i + (s.reg x).setWidth 16 }
  refine ⟨_, exec_completes (i := .addI x) trivial rfl hp, by rw [hi, toNat_add_zext], ?set, ?kept, ?regs,
    committed_keeps (by simp [partsWritten]) s, toNat_of_legal hp⟩
  case set => exact fun h => (hreg vf).trans (if_pos ⟨rfl, hi ▸ h⟩)
  case kept => exact fun h => (hreg vf).trans (if_neg fun hf => h (hi ▸ hf.2))
  case regs => exact fun r hr => (hreg r).trans (if_neg fun hf => hr (by simp [hf.1]))

/-- Inside MEM the index after a block does not wrap. -/
theorem toNat_indexAfterBlock {s : State} {x : RegNum} (h : s.i.toNat + x.toNat ≤ 4095) :
    (indexAfterBlock s x).toNat = s.i.toNat + (if s.q.indexAutoIncrement then x.toNat + 1 else 0) := by
  unfold indexAfterBlock
  split
  · rw [BitVec.toNat_ofNat]
    omega
  · rfl

/-! ## Stores and loads -/

/-- Settles O42: LD B is one placing of the three digits. -/
theorem bcdStoresThreeDigits : Obligations.BcdStoresThreeDigits := by
  refine fun x s => ⟨fun hin hp => ?_, fun hrun hout => exec_raises_ownFault (i := .ldBcd x) hrun (if_pos hout)⟩
  have hown : ownFault (.ldBcd x) s = none := if_neg (Nat.not_lt.mpr hin)
  have hread (k : Nat) (hk : k < 3) := Memory.read_place_inside s.mem (dataAddr s) (bcdDigits (s.reg x)) (k := k) hk
  have hb := (s.reg x).isLt
  refine ⟨_, exec_completes (i := .ldBcd x) trivial hown hp, ?hundreds, ?tens, ?units, ?elsewhere,
    committed_keeps (by simp [partsWritten]) s, toNat_of_legal hp⟩
  case hundreds => exact (congrArg _ (hread 0 (by decide))).trans (Nat.mod_eq_of_lt (by omega))
  case tens => exact (congrArg _ (hread 1 (by decide))).trans (Nat.mod_eq_of_lt (by omega))
  case units => exact (congrArg _ (hread 2 (by decide))).trans (Nat.mod_eq_of_lt (by omega))
  case elsewhere =>
    intro a ha
    exact Memory.read_place_outside s.mem (dataAddr s) (bcdDigits (s.reg x)) (by simp [bcdDigits]; omega)

/-- Each register of a stored block stands at its place. -/
theorem read_place_regsUpTo (s : State) {x r : RegNum} (h : r.toNat ≤ x.toNat) :
    (s.mem.place (dataAddr s) (regsUpTo s x)).read (dataAddr s + r.toNat) = s.reg r := by
  have hlen : r.toNat < (regsUpTo s x).length := by rw [length_regsUpTo]; omega
  rw [Memory.read_place_inside _ _ _ hlen, getElem_regsUpTo]

/-- Settles O43: LD [I] is one placing of the registers and the write of `I`. -/
theorem storeRegistersFillsMemoryFromIndex : Obligations.StoreRegistersFillsMemoryFromIndex := by
  refine fun x s => ⟨fun hin hp => ?_, fun hrun hout => exec_raises_ownFault (i := .storeRegs x) hrun (if_pos hout)⟩
  have hown : ownFault (.storeRegs x) s = none := if_neg (Nat.not_lt.mpr hin)
  refine ⟨_, exec_completes (i := .storeRegs x) trivial hown hp, fun r hr => read_place_regsUpTo s hr, ?elsewhere,
    toNat_indexAfterBlock hin, committed_keeps (by simp [partsWritten]) s, toNat_of_legal hp⟩
  intro a ha
  exact Memory.read_place_outside s.mem (dataAddr s) (regsUpTo s x) (by rw [length_regsUpTo]; omega)

/-- Each register of a loaded block holds its byte. -/
theorem getElem_loaded (s : State) {x r : RegNum} (h : r.toNat ≤ x.toNat) :
    (setRegsFrom s.v 0 ((List.range (x.toNat + 1)).map fun j => s.mem.read (dataAddr s + j)))[r.toNat]
      = s.mem.read (dataAddr s + r.toNat) := by
  rw [getElem_setRegsFrom]
  simp [List.getD, List.getElem?_range (Nat.lt_succ_of_le h)]

/-- Settles O44: LD Vx, [I] is one write of the block of registers and the write of `I`. -/
theorem loadRegistersReadsMemoryFromIndex : Obligations.LoadRegistersReadsMemoryFromIndex := by
  refine fun x s => ⟨fun hin hp => ?_, fun hrun hout => exec_raises_ownFault (i := .loadRegs x) hrun (if_pos hout)⟩
  have hown : ownFault (.loadRegs x) s = none := if_neg (Nat.not_lt.mpr hin)
  exact ⟨_, exec_completes (i := .loadRegs x) trivial hown hp, fun r hr => getElem_loaded s hr,
    fun r hr => effect_reg (i := .loadRegs x) (Nat.not_le.mpr hr), toNat_indexAfterBlock hin,
    committed_keeps (by simp [partsWritten]) s, toNat_of_legal hp⟩

/-- Settles O45: the two bytes fetched at the old `I` are the first two of the stored block. -/
theorem storedRegistersAreFetched : Obligations.StoredRegistersAreFetched := by
  intro x s t hx h ht
  obtain ⟨-, rfl⟩ := completed_of_err_none h ht
  exact congrArg₂ wordOfBytes (read_place_regsUpTo s (r := 0#4) (Nat.zero_le _)) (read_place_regsUpTo s (r := 1#4) hx)

end Sys2Proof.Machine
end

section
/-! Proofs about DRW (44_display.md). -/

namespace Sys2Proof.Machine
open Sys2Proof.Claims

/-- The drawn bits of R152 and R153 are the cells the sprite engine toggles. -/
theorem drawn_iff_spriteBit (s : State) (x y : RegNum) (n : Nibble) (r c : Nat) :
    Drawn s (drawCol s x) (drawRow s y) n.toNat r c
      ↔ SpriteBit s.mem s.i.toNat (originCol (s.reg x)) (originRow (s.reg y)) n.toNat 0 r c := by
  have hrows : rowsFrom (originCol (s.reg x)) (originRow (s.reg y)) n.toNat 0
      = processedRows (drawCol s x) (drawRow s y) n.toNat := spriteRows_eq x y n s
  simp only [SpriteBit, hrows, RowBit, Nat.add_zero]
  exact Iff.rfl

/-- A draw that reads only bytes of MEM and can go on completes: its picture, its flag and its frame. -/
theorem exec_drw_completes {x y : RegNum} {n : Nibble} {s : State} (hp : PcLegal (s.pc.toNat + 2))
    (hread : SpriteReadable s (drawCol s x) (drawRow s y) n.toNat) :
    ∃ t hit, exec (.drw x y n) s = .next t
      ∧ (∀ r c, pixel t.fb r c = if r = drawRow s y ∧ c = drawCol s x then true else
          (pixel s.fb r c
            ^^ decide (SpriteBit s.mem s.i.toNat (originCol (s.reg x)) (originRow (s.reg y)) n.toNat 0 r c)))
      ∧ (hit = true ↔ ∃ r c, Drawn s (drawCol s x) (drawRow s y) n.toNat r c ∧ pixel s.fb r c = true)
      ∧ t.reg 15#4 = flagByte hit
      ∧ RegsKeptBut [15#4] s t ∧ KeepsAllBut [.fb, .regs, .pc] s t ∧ t.pc.toNat = s.pc.toNat + 2 := by
  obtain ⟨fb, hit, hexec, hpixel, hhit⟩ := execDrw_inside (x := x) (y := y) (n := n) (s := s)
    (by rwa [spriteRows_eq])
  refine ⟨_, hit, hexec.trans (commit_of_legal _ _ hp), hpixel, ?hit, ?flag, ?regs, ?frame, toNat_of_legal hp⟩
  case hit => simpa only [drawn_iff_spriteBit] using hhit
  case flag => exact reg_setFlag_vf { s with fb := fb } hit
  case regs => exact regsKeptBut_setReg { s with fb := fb } vf (flagByte hit)
  case frame =>
    exact (((KeepsAllBut.refl _ s).withFb (by decide) fb).setReg (by decide) vf _).withPc (by decide) _

/-- Settles O49: `exec_drw_completes` read cell by cell. -/
theorem drawTogglesExactlyTheDrawnBits : Obligations.DrawTogglesExactlyTheDrawnBits := by
  rintro x y n s px py rfl rfl hp hread
  obtain ⟨t, hit, hexec, hpixel, -, -, hregs, hframe, hpc⟩ := exec_drw_completes hp hread
  refine ⟨t, hexec, (hpixel _ _).trans (if_pos ⟨rfl, rfl⟩), fun r c _ _ hother => ⟨fun hd => ?_, fun hd => ?_⟩,
    hregs, hframe, hpc⟩
  · rw [hpixel, if_neg hother, decide_eq_true ((drawn_iff_spriteBit s x y n r c).mp hd), Bool.xor_true]
  · rw [hpixel, if_neg hother, decide_eq_false (mt (drawn_iff_spriteBit s x y n r c).mpr hd), Bool.xor_false]

/-- A draw that completes read only bytes of MEM. -/
theorem spriteReadable_of_no_ownFault {x y : RegNum} {n : Nibble} {s : State} (h : ownFault (.drw x y n) s = none) :
    SpriteReadable s (drawCol s x) (drawRow s y) n.toNat := by
  simp [ownFault] at h
  unfold SpriteReadable
  omega

/-- Settles O50: a draw that completes is that of `exec_drw_completes`, whose flag is the collision. -/
theorem drawFlagIsCollision : Obligations.DrawFlagIsCollision := by
  rintro x y n s t px py rfl rfl - h ht
  obtain ⟨hown, hp⟩ := faultOf_eq_none_iff.mp (completed_of_err_none h ht).1
  obtain ⟨u, hit, hexec, -, hhit, hflag, -⟩ := exec_drw_completes hp (spriteReadable_of_no_ownFault hown)
  cases hexec.symm.trans h
  refine ⟨fun hcol => ?_, fun hcol => ?_⟩
  · rw [hflag, hhit.mpr hcol]; rfl
  · rw [hflag, Bool.eq_false_iff.mpr (mt hhit.mp hcol)]; rfl

theorem not_drawn_zero (s : State) (px py r c : Nat) : ¬ Drawn s px py 0 r c := by
  rintro ⟨hge, hlt, -⟩
  simp [processedRows] at hlt
  omega

/-- Settles O51: a draw of no rows reads nothing and has no drawn bit. -/
theorem emptyDrawLightsOriginOnly : Obligations.EmptyDrawLightsOriginOnly := by
  rintro x y s px py rfl rfl hp
  obtain ⟨t, hit, hexec, hpixel, hhit, hflag, hregs, hframe, hpc⟩ :=
    exec_drw_completes (x := x) (y := y) (n := 0#4) hp (.inl rfl)
  have hnone (r c : Nat) := not_drawn_zero s (drawCol s x) (drawRow s y) r c
  have hno_hit : hit = false := Bool.eq_false_iff.mpr fun h => by
    obtain ⟨r, c, hd, -⟩ := hhit.mp h
    exact hnone r c hd
  refine ⟨t, hexec, by rw [hflag, hno_hit]; rfl, fun r c _ _ => ?_, hregs, hframe, hpc⟩
  rw [hpixel, decide_eq_false (mt (drawn_iff_spriteBit s x y 0#4 r c).mpr (hnone r c)), Bool.xor_false]

end Sys2Proof.Machine
end
